-- ==== Sys2Proof/Word.lean ====
section
/-! DEFINITION. The widths of H74CE: every value is an unsigned bit vector of a fixed width (R8); element `i` of a
list of the source is bit `i` of the field that holds it (R9, R56). -/

namespace Sys2Proof

/-- A 32-bit host word: a command word or one location of the register space (R51, R53, R70). -/
abbrev Word := BitVec 32

/-- A byte offset into the 64 KiB host register space (R50). -/
abbrev Offset := BitVec 16

/-- A DataBlock `[d0, …, d3]`: data bit `d_j` is bit `j` (R9, R23). -/
abbrev DataBlock := BitVec 4

/-- Seven bits indexed by codeword position or by channel (R9): a codeword, an erasure mask, `CHSTAT`. -/
abbrev Bits7 := BitVec 7

/-- A Syndrome `[s0, s1, s2]`, also the 1-based error position (R9, R25, R26). -/
abbrev Syndrome := BitVec 3

end Sys2Proof
end

