-- ==== Sys2Proof/Syntax.lean ====
section
/-! DEFINITION. The commands of H74CE: one constructor per row of spec/opcode_table.json (R75), in the table's order.
Operands are numbers, as the spec's assembler takes them (R79); WellFormed says which numbers fit their field. -/

namespace Sys2Proof

/-- A command of R75. `len` is the claimed input length in bits (R72); `k` is a batch position and `c` a channel (R73).
Operands of any size are a DESIGN CHOICE, safe (log entry 16). -/
inductive Instr where
  | nop
  | mvg
  | mvh
  | clrerr
  | enc (len : Nat)
  | dec (len : Nat)
  | edec
  | ilv
  | ilv1 (k : Nat)
  | dil (k : Nat)
  | dilb
  | chrdy (c : Nat)
  | chlost (c : Nat)
  | bclr
  | encb
  | decb
deriving DecidableEq, Repr

end Sys2Proof
end

