-- ==== Sys2Proof/WellFormed.lean ====
section
/-! DEFINITION. Which commands have a command word: an operand fits its field (R70, R79: "refuses an operand that does
not fit its field (len > 255, k or c > 65535)"). An operand that fits but is out of range for the machine is a legal
word that faults by value when it is performed (R77), so it is well formed. -/

namespace Sys2Proof

/-- Every operand of the command fits its field of the command word. -/
def Instr.wf : Instr → Bool
  | .nop => true
  | .mvg => true
  | .mvh => true
  | .clrerr => true
  | .enc len => decide (len ≤ 255)
  | .dec len => decide (len ≤ 255)
  | .edec => true
  | .ilv => true
  | .ilv1 k => decide (k ≤ 65535)
  | .dil k => decide (k ≤ 65535)
  | .dilb => true
  | .chrdy c => decide (c ≤ 65535)
  | .chlost c => decide (c ≤ 65535)
  | .bclr => true
  | .encb => true
  | .decb => true

/-- `Instr.wf` as a proposition. -/
abbrev Instr.WellFormed (i : Instr) : Prop := i.wf = true

end Sys2Proof
end

