-- ==== Sys2Proof/Decode.lean ====
section
/-! DEFINITION. The decoder of R78, total on every 32-bit word, over the table of R75, and after it the encoder of R70.
A word that matches no row is illegal, and the decoder says by name why (R76). -/

namespace Sys2Proof

/-- `OPC = w[31:24]` (R71). -/
def opcField (w : Word) : BitVec 8 := w.extractLsb' 24 8

/-- `LEN = w[23:16]` (R72). -/
def lenField (w : Word) : BitVec 8 := w.extractLsb' 16 8

/-- `ARG = w[15:0]` (R73). -/
def argField (w : Word) : BitVec 16 := w.extractLsb' 0 16

/-- One row of the table of R75: word `w` is the row's command iff `(w & mask) = pattern`. -/
structure OpRow where
  mnemonic : String
  pattern  : Word
  mask     : Word
  /-- The command, given the word's `LEN` and `ARG`. -/
  build    : Nat → Nat → Instr

/-- Whether word `w` matches a row (R75). -/
def OpRow.admits (r : OpRow) (w : Word) : Bool := (w &&& r.mask) == r.pattern

/-- The table of R75, in its order, with the spec's own `match` and `mask` columns. -/
def opTable : List OpRow :=
  [ ⟨"NOP",    0x00000000, 0xFFFFFFFF, fun _ _ => .nop⟩,
    ⟨"MVG",    0x01000000, 0xFFFFFFFF, fun _ _ => .mvg⟩,
    ⟨"MVH",    0x02000000, 0xFFFFFFFF, fun _ _ => .mvh⟩,
    ⟨"CLRERR", 0x0F000000, 0xFFFFFFFF, fun _ _ => .clrerr⟩,
    ⟨"ENC",    0x10000000, 0xFF00FFFF, fun len _ => .enc len⟩,
    ⟨"DEC",    0x11000000, 0xFF00FFFF, fun len _ => .dec len⟩,
    ⟨"EDEC",   0x12000000, 0xFFFFFFFF, fun _ _ => .edec⟩,
    ⟨"ILV",    0x20000000, 0xFFFFFFFF, fun _ _ => .ilv⟩,
    ⟨"ILV1",   0x21000000, 0xFFFF0000, fun _ arg => .ilv1 arg⟩,
    ⟨"DIL",    0x22000000, 0xFFFF0000, fun _ arg => .dil arg⟩,
    ⟨"DILB",   0x23000000, 0xFFFFFFFF, fun _ _ => .dilb⟩,
    ⟨"CHRDY",  0x30000000, 0xFFFF0000, fun _ arg => .chrdy arg⟩,
    ⟨"CHLOST", 0x31000000, 0xFFFF0000, fun _ arg => .chlost arg⟩,
    ⟨"BCLR",   0x32000000, 0xFFFFFFFF, fun _ _ => .bclr⟩,
    ⟨"ENCB",   0x40000000, 0xFFFFFFFF, fun _ _ => .encb⟩,
    ⟨"DECB",   0x41000000, 0xFFFFFFFF, fun _ _ => .decb⟩ ]

/-- Why a word is illegal (R76): its `OPC` is not in the table, or a must-be-zero field of a listed `OPC` is not 0
(the two names are a DESIGN CHOICE, safe; log entry 14). -/
inductive IllegalWord where
  | unknownOpc (opc : BitVec 8)
  | nonzeroField (opc : BitVec 8)
deriving DecidableEq, Repr

/-- What the decoder answers (R78: `Command | Illegal`). -/
inductive Decoded where
  | command (i : Instr)
  | illegal (why : IllegalWord)
deriving DecidableEq, Repr

/-- `decode` of R78: the command of the first row that matches, and the illegal word by name when none does. -/
def decode (w : Word) : Decoded :=
  match opTable.find? (fun r => r.admits w) with
  | some r => .command (r.build (lenField w).toNat (argField w).toNat)
  | none =>
    if opTable.any (fun r => opcField r.pattern == opcField w) then .illegal (.nonzeroField (opcField w))
    else .illegal (.unknownOpc (opcField w))

/-- The instruction the decoder reads from a word numbered as spec/opcode_table.json numbers it: bit 0 is the least
significant bit of the one 32-bit word a command is (R70). -/
def decodeTableWord (nbits w : Nat) : Option Instr :=
  match decode (BitVec.ofNat 32 (w % 2 ^ nbits)) with
  | .command i => some i
  | .illegal _ => none

/-- The command word of format `CMDW` (R70): `OPC` in bits 31:24, `LEN` in bits 23:16, `ARG` in bits 15:0. -/
def commandWord (opc : BitVec 8) (len : BitVec 8) (arg : BitVec 16) : Word := (opc ++ len) ++ arg

/-- The operation code of a command (R75, column OPC). -/
def Instr.opc : Instr → BitVec 8
  | .nop => 0x00
  | .mvg => 0x01
  | .mvh => 0x02
  | .clrerr => 0x0F
  | .enc _ => 0x10
  | .dec _ => 0x11
  | .edec => 0x12
  | .ilv => 0x20
  | .ilv1 _ => 0x21
  | .dil _ => 0x22
  | .dilb => 0x23
  | .chrdy _ => 0x30
  | .chlost _ => 0x31
  | .bclr => 0x32
  | .encb => 0x40
  | .decb => 0x41

/-- The value a command puts into `LEN` (R75, column LEN; R74: 0 where it is unused). -/
def Instr.len : Instr → Nat
  | .enc len => len
  | .dec len => len
  | .nop | .mvg | .mvh | .clrerr | .edec | .ilv | .ilv1 _ | .dil _ | .dilb | .chrdy _ | .chlost _ | .bclr
  | .encb | .decb => 0

/-- The value a command puts into `ARG` (R75, column ARG; R74: 0 where it is unused). -/
def Instr.arg : Instr → Nat
  | .ilv1 k => k
  | .dil k => k
  | .chrdy c => c
  | .chlost c => c
  | .nop | .mvg | .mvh | .clrerr | .enc _ | .dec _ | .edec | .ilv | .dilb | .bclr | .encb | .decb => 0

/-- The command word of a well-formed command (R70 to R75). -/
def encode (i : Instr) : Word := commandWord i.opc (BitVec.ofNat 8 i.len) (BitVec.ofNat 16 i.arg)

end Sys2Proof
end

