-- ==== Sys2Proof/Config.lean ====
section
/-! DEFINITION. The two parameters an H74CE has (R6, R7, U13, U14): the batch capacity `NMAX` and the platform's base
address `H74CE_BASE`. They are fixed for one machine, no step writes them, and a claim over all states holds for every
value of them. There is no free value in this model: the spec gives one value wherever it gives an effect. -/

namespace Sys2Proof

/-- The parameters of one H74CE. -/
structure Config where
  /-- `NMAX`: entries of each batch buffer and positions of each channel buffer (R6). -/
  nmax : Nat
  /-- `H74CE_BASE`: the address the platform puts offset 0 at (R50; DESIGN CHOICE in `reference`, unsafe, log entry 2). -/
  base : Nat
deriving DecidableEq, Repr

/-- The range of `NMAX` the address map admits (R6). -/
abbrev Config.Valid (cfg : Config) : Prop := 1 ≤ cfg.nmax ∧ cfg.nmax ≤ 1024

/-- The spec's reference value `NMAX = 1024` (R6), at base address 0 (DESIGN CHOICE, unsafe for a claim that uses
either value; log entries 1 and 2). -/
def Config.reference : Config := { nmax := 1024, base := 0 }

end Sys2Proof
end

