-- ==== Sys2Proof/Machine/State.lean ====
section
/-! DEFINITION. The state of H74CE (R20), as plain data, and the state after reset (R42). The registers and buffers are
the spec's. The fields `bus`, `reply` and `faultLog` are the MODEL's own: the host's pending accesses (R13, R61), the
last answer on the host bus, and the ghost record of faults of the modelling note of 60_exceptions.md. -/

namespace Sys2Proof.Machine

/-- A buffer: the list of (index, entry) pairs in one canonical form (`Store.wf`), where an index that is not listed
reads as the zero entry (R42 clears every buffer at reset). DESIGN CHOICE, safe (log entry 9). -/
abbrev Store (α : Type) := List (Nat × α)

/-- Seven tri-state bit slots (R11): slot `i` holds the bit `v[i]`, and is erased iff `e[i] = 1`. -/
structure TriWord where
  v : Bits7
  e : Bits7
deriving DecidableEq, Repr, Inhabited

/-- An entry of `DOB` (R37). -/
structure DobEntry where
  data    : DataBlock
  corr    : Bool
  uncorr  : Bool
  noMatch : Bool
  epath   : Bool
deriving DecidableEq, Repr, Inhabited

/-- The fault codes a command can record (R210; code 0 is "none" and 6 to 15 are never produced). -/
inductive ErrCode where
  | invalidLength
  | illegalCommand
  | illegalOperand
  | erasedInput
  | partialBatch
deriving DecidableEq, Repr

/-- The fields of `STATUS` that hold state (R31); the other bits read 0. -/
structure Status where
  err     : BitVec 4
  corr    : Bool
  uncorr  : Bool
  noMatch : Bool
deriving DecidableEq, Repr

/-- The batch and channel buffers (R35 to R38). -/
structure Memory where
  /-- `DIB[k]` (R35). -/
  dib : Store DataBlock
  /-- `CWB[k]`, values and erasure mask (R36). -/
  cwb : Store TriWord
  /-- `DOB[k]` (R37). -/
  dob : Store DobEntry
  /-- `CHV[c][k]` (R38). -/
  chv : Vector (Store Bool) 7
  /-- `CHE[c][k]` (R38). -/
  che : Vector (Store Bool) 7
deriving DecidableEq, Repr

/-- What arrives at the one port, in the order the bus decides (R61, R64): a host agent's access of `size` bytes at an
absolute address, or the platform's reset input (R240). -/
inductive BusEvent where
  | read (agent addr size : Nat)
  | write (agent addr size : Nat) (value : Word)
  | reset
deriving DecidableEq, Repr

/-- The last answer on the host bus (R245): none yet, the word a read delivered, or the end of a write. -/
inductive BusReply where
  | idle
  | data (agent : Nat) (value : Word)
  | written (agent : Nat)
deriving DecidableEq, Repr

/-- One fault that was raised: its code and the command word (R212). -/
structure FaultRecord where
  code : ErrCode
  word : Word
deriving DecidableEq, Repr

/-- Why an access is an access error (R54). -/
inductive AccessError where
  | width (size : Nat)
  | misaligned (offset : Offset)
deriving DecidableEq, Repr

/-- The state of one H74CE (R20). -/
structure State where
  /-- The parameters of this H74CE (R6, R50); no step writes them. -/
  cfg      : Config
  /-- `STATUS` (R31). -/
  status   : Status
  /-- `D` (R23). -/
  regD     : DataBlock
  /-- `C`: `CV` and `CE` (R24). -/
  regC     : TriWord
  /-- `S` (R25). -/
  regS     : Syndrome
  /-- `P` (R26). -/
  regP     : Syndrome
  /-- `Q` (R27). -/
  regQ     : DataBlock
  /-- `CC` (R28). -/
  regCC    : Bits7
  /-- `N` (R29). -/
  regN     : BitVec 16
  /-- `CHSTAT` (R30). -/
  chstat   : Bits7
  /-- `ERRCMD` (R32). -/
  errcmd   : Word
  /-- The buffers (R35 to R38). -/
  mem      : Memory
  /-- MODEL'S OWN: the accesses and resets still to come, oldest first (DESIGN CHOICE, safe; log entry 3). -/
  bus      : List BusEvent
  /-- MODEL'S OWN: the last answer on the host bus (DESIGN CHOICE, safe; log entry 4). -/
  reply    : BusReply
  /-- MODEL'S OWN, a ghost no host sees: every fault raised, the latest first (DESIGN CHOICE, safe; log
  entry 5). -/
  faultLog : List FaultRecord
deriving DecidableEq, Repr

/-- What ends a run. A command's fault (R212) is NOT one of these: it is a next state with `STATUS.ERR` set. -/
inductive Fault where
  /-- Raised by a step on a host access that is not an aligned 32-bit access (R54, U10: "a fault of the host agent"):
  H74CE changes no state and answers the agent with an error response that delivers `delivered`, which is 0.
  DEDUCED, SAFE: the run stops, so nothing is proved of a program that makes one (log entry 10). -/
  | accessError (agent : Nat) (why : AccessError) (delivered : Word)
  /-- Raised by a step on an access outside the 64 KiB window at `H74CE_BASE` (R50): no access of H74CE.
  DESIGN CHOICE, SAFE: the run stops (log entry 6). -/
  | outsideRegisterSpace (agent addr : Nat)
deriving DecidableEq, Repr

/-- What the model gives no meaning to: nothing, once every arm of `exec` calls a meaning. -/
inductive Refusal where
  /-- Raised by `exec` on an instruction that has no meaning yet. SAFE: the run stops. No arm raises it now. -/
  | notModelled (mnemonic : String)
deriving DecidableEq, Repr

/-- The buffers after reset: every entry 0 (R42). -/
def Memory.cleared : Memory :=
  { dib := [], cwb := [], dob := [], chv := Vector.replicate 7 [], che := Vector.replicate 7 [] }

/-- The state of an H74CE with the given parameters right after reset (R42), with nothing pending on the bus. -/
def State.resetWith (cfg : Config) : State :=
  { cfg := cfg
    status := { err := 0, corr := false, uncorr := false, noMatch := false }
    regD := 0
    regC := { v := 0, e := 0 }
    regS := 0
    regP := 0
    regQ := 0
    regCC := 0
    regN := 0
    chstat := 0
    errcmd := 0
    mem := Memory.cleared
    bus := []
    reply := .idle
    faultLog := [] }

/-- The machine right after reset (R42), with the reference parameters (R6). -/
def State.reset : State := State.resetWith Config.reference

end Sys2Proof.Machine
end

