-- ==== Sys2Proof/Machine/Flags.lean ====
section
/-! DEFINITION. The status flags: the numbers of the fault codes (R210), the layout of the `STATUS` word (R31) and of a
`DOB` entry (R37), and the one write of the decode flags (R31, R40). -/

namespace Sys2Proof.Machine

/-- The value of `STATUS.ERR` that names a fault (R210). -/
def ErrCode.code : ErrCode → BitVec 4
  | .invalidLength => 1
  | .illegalCommand => 2
  | .illegalOperand => 3
  | .erasedInput => 4
  | .partialBatch => 5

/-- A flag at its bit of a 32-bit word. -/
def flagAt (b : Bool) (i : Nat) : Word := if b then 1#32 <<< i else 0#32

/-- The word `STATUS` reads as (R31): `ERR` in bits 3:0, `CORR`, `UNCORR`, `NOMATCH` in bits 8, 9, 10; the reserved bits
and `BUSY` read 0. -/
def Status.word (st : Status) : Word :=
  st.err.setWidth 32 ||| flagAt st.corr 8 ||| flagAt st.uncorr 9 ||| flagAt st.noMatch 10

/-- The word a `DOB` entry reads as (R37, R190). -/
def DobEntry.word (r : DobEntry) : Word :=
  r.data.setWidth 32 ||| flagAt r.corr 8 ||| flagAt r.uncorr 9 ||| flagAt r.noMatch 10 ||| flagAt r.epath 11

/-- The decode flags after a decode; `ERR` keeps its value (R31). -/
def Status.withDecodeFlags (st : Status) (corr uncorr noMatch : Bool) : Status :=
  { st with corr := corr, uncorr := uncorr, noMatch := noMatch }

/-- `STATUS.CORR <- corr; STATUS.UNCORR <- uncorr; STATUS.NOMATCH <- noMatch` (R31). -/
def State.withDecodeFlags (s : State) (corr uncorr noMatch : Bool) : State :=
  { s with status := s.status.withDecodeFlags corr uncorr noMatch }

/-- A fault is pending: `STATUS.ERR ≠ 0` (R214). -/
def State.errPending (s : State) : Bool := s.status.err != 0

end Sys2Proof.Machine
end

