-- ==== Sys2Proof/Machine/Ops.lean ====
section
/-! DEFINITION. The operations the meanings share: loops, bit vectors built bit by bit, the buffers' reads and writes,
the register writes, and taking a fault (R212) with the return from one (R220) beside it. -/

namespace Sys2Proof.Machine

/-- `for k in 0 .. n-1` (R12): runs `f 0`, then `f 1`, …; zero times when `n = 0` (DEDUCED, safe; log entry 15). -/
def forUpTo {σ : Type} (f : Nat → σ → σ) : Nat → σ → σ
  | 0, x => x
  | n + 1, x => f n (forUpTo f n x)

/-- The OR of `f 0, …, f (n-1)`. -/
def anyUpTo (f : Nat → Bool) : Nat → Bool
  | 0 => false
  | n + 1 => anyUpTo f n || f n

/-- The sum mod 2 of `f 0, …, f (n-1)` (R10). -/
def xorUpTo (f : Nat → Bool) : Nat → Bool
  | 0 => false
  | n + 1 => xorUpTo f n ^^ f n

/-- How many of `f 0, …, f (n-1)` hold. -/
def countUpTo (f : Nat → Bool) : Nat → Nat
  | 0 => 0
  | n + 1 => countUpTo f n + (f n).toNat

/-- `popcount(v)` (R10). -/
def popcount {w : Nat} (v : BitVec w) : Nat := countUpTo (fun i => v.getLsbD i) w

/-- The vector whose bit `i` is `f i` (R9). -/
def ofBits : (n : Nat) → (Fin n → Bool) → BitVec n
  | 0, _ => 0#0
  | n + 1, f => BitVec.cons (f (Fin.last n)) (ofBits n (fun i => f i.castSucc))

/-- Entry `k` of a buffer; an entry that is not listed is the zero entry (R42). -/
def Store.get {α : Type} [Inhabited α] : Store α → Nat → α
  | [], _ => default
  | (j, v) :: rest, k => if j = k then v else Store.get rest k

/-- The buffer without entry `k`. -/
def Store.erase {α : Type} (b : Store α) (k : Nat) : Store α := b.filter (fun x => x.1 != k)

/-- The buffer with an entry put at its place in the rising order of the indices. -/
def Store.insert {α : Type} : Store α → Nat → α → Store α
  | [], k, v => [(k, v)]
  | (j, u) :: rest, k, v => if k < j then (k, v) :: (j, u) :: rest else (j, u) :: Store.insert rest k v

/-- `B[k] <- v`: the zero entry is not listed, so that equal buffers are equal data. -/
def Store.set {α : Type} [Inhabited α] [DecidableEq α] (b : Store α) (k : Nat) (v : α) : Store α :=
  if v = default then b.erase k else (b.erase k).insert k v

/-- `B[k] <- 0` for every `k` in `0 .. n-1`. -/
def Store.clearBelow {α : Type} (b : Store α) (n : Nat) : Store α := b.filter (fun x => decide (n ≤ x.1))

/-- The canonical form of a buffer of `n` entries: indices strictly rising and below `n`, no zero entry listed. -/
abbrev Store.wf {α : Type} [Inhabited α] [DecidableEq α] (n : Nat) (b : Store α) : Prop :=
  b.Pairwise (fun x y => x.1 < y.1) ∧ ∀ x ∈ b, x.1 < n ∧ x.2 ≠ default

/-- Every buffer is in canonical form and within the capacity `NMAX`. -/
abbrev Memory.wf (nmax : Nat) (m : Memory) : Prop :=
  Store.wf nmax m.dib ∧ Store.wf nmax m.cwb ∧ Store.wf nmax m.dob ∧
    (∀ c : Fin 7, Store.wf nmax m.chv[c]) ∧ (∀ c : Fin 7, Store.wf nmax m.che[c])

/-- `DIB[k]` (R35). -/
def Memory.dibAt (m : Memory) (k : Nat) : DataBlock := Store.get m.dib k

/-- `CWB[k]` (R36). -/
def Memory.cwbAt (m : Memory) (k : Nat) : TriWord := Store.get m.cwb k

/-- `DOB[k]` (R37). -/
def Memory.dobAt (m : Memory) (k : Nat) : DobEntry := Store.get m.dob k

/-- `CHV[c][k]` (R38). -/
def Memory.chvAt (m : Memory) (c : Fin 7) (k : Nat) : Bool := Store.get m.chv[c] k

/-- `CHE[c][k]` (R38). -/
def Memory.cheAt (m : Memory) (c : Fin 7) (k : Nat) : Bool := Store.get m.che[c] k

/-- `DIB[k] <- v`. -/
def Memory.setDib (m : Memory) (k : Nat) (v : DataBlock) : Memory := { m with dib := Store.set m.dib k v }

/-- `CWB[k] <- v`. -/
def Memory.setCwb (m : Memory) (k : Nat) (v : TriWord) : Memory := { m with cwb := Store.set m.cwb k v }

/-- `DOB[k] <- r`. -/
def Memory.setDob (m : Memory) (k : Nat) (r : DobEntry) : Memory := { m with dob := Store.set m.dob k r }

/-- `CHV[c][k] <- b`. -/
def Memory.setChv (m : Memory) (c : Fin 7) (k : Nat) (b : Bool) : Memory :=
  { m with chv := m.chv.set c (Store.set m.chv[c] k b) }

/-- `CHE[c][k] <- b`. -/
def Memory.setChe (m : Memory) (c : Fin 7) (k : Nat) (b : Bool) : Memory :=
  { m with che := m.che.set c (Store.set m.che[c] k b) }

/-- The seven channels, in order (`for c in 0 .. 6`). -/
def channels : List (Fin 7) := [0, 1, 2, 3, 4, 5, 6]

/-- `C <- w` (R24). -/
def State.withC (s : State) (w : TriWord) : State := { s with regC := w }

/-- `S <- v` (R25). -/
def State.withS (s : State) (v : Syndrome) : State := { s with regS := v }

/-- `S <- sy; P <- p; CC <- cc; Q <- q` (R25 to R28). -/
def State.withDecoded (s : State) (sy p : Syndrome) (cc : Bits7) (q : DataBlock) : State :=
  { s with regS := sy, regP := p, regCC := cc, regQ := q }

/-- `CHSTAT <- v` (R30). -/
def State.withChstat (s : State) (v : Bits7) : State := { s with chstat := v }

/-- The state with its buffers written. -/
def State.withMem (s : State) (m : Memory) : State := { s with mem := m }

/-- `raise Fault(e)` for command word `w` (R212): `STATUS.ERR <- e; ERRCMD <- w`, and nothing else the spec gives the
machine; the ghost record keeps it too (log entry 5). -/
def State.raise (s : State) (e : ErrCode) (w : Word) : State :=
  { s with status := { s.status with err := e.code }, errcmd := w, faultLog := ⟨e, w⟩ :: s.faultLog }

/-- The return from a fault (R220, R194): `STATUS.ERR <- 0; ERRCMD <- 0`, and nothing else. -/
def State.acknowledge (s : State) : State :=
  { s with status := { s.status with err := 0 }, errcmd := 0 }

/-- The reset input, asserted and released (R240): every piece of H74CE's state holds its reset value (R42). The
parameters, the accesses still to come and the ghost record are not H74CE's state and stay (DESIGN CHOICE, safe for H74CE's
state; log entry 7). -/
def State.applyReset (s : State) : State :=
  { State.resetWith s.cfg with bus := s.bus, faultLog := s.faultLog }

end Sys2Proof.Machine
end

