-- ==== Sys2Proof/Machine/Operands.lean ====
section
/-! DEFINITION. The operands of a command and the checks on them (R73, R77, R215). A command makes every check before
its first write (R213), in the order of R215; the first that fails is the one reported. -/

namespace Sys2Proof.Machine

/-- What a meaning answers. -/
abbrev Result := Host.Outcome State Fault Refusal

/-- One check of R215: when `bad` holds, the command `i` ends with fault `e`, its command word in `ERRCMD` (R212;
DEDUCED, safe: `encode` gives the word the host wrote; log entry 12); else it goes on. -/
def check (bad : Bool) (e : ErrCode) (i : Instr) (s : State) (go : Result) : Result :=
  if bad then .next (s.raise e (encode i)) else go

/-- The batch length `N` (R29). -/
def State.batch (s : State) : Nat := s.regN.toNat

/-- `N > NMAX` (R29, R215). -/
def State.batchTooLong (s : State) : Bool := decide (s.cfg.nmax < s.batch)

/-- `k ≥ N` (R73, R215). -/
def State.positionOutside (s : State) (k : Nat) : Bool := decide (s.batch ≤ k)

/-- `CHSTAT ≠ 0b1111111` (R153). -/
def State.batchPartial (s : State) : Bool := s.chstat != 0x7F#7

/-- The channel an operand names: `c` in `0 .. 6`, and none for `c ≥ 7` (R73, R215). -/
def channel? (c : Nat) : Option (Fin 7) := if h : c < 7 then some ⟨c, h⟩ else none

/-- The bit of a 7-bit set that stands for a channel (R9). -/
def channelBit (c : Fin 7) : Bits7 := 1#7 <<< c.val

/-- A channel operand: the command `i` ends with `ILLEGAL_OPERAND` for `c ≥ 7`, else it goes on with the channel. -/
def withChannel (c : Nat) (i : Instr) (s : State) (go : Fin 7 → Result) : Result :=
  match channel? c with
  | none => .next (s.raise .illegalOperand (encode i))
  | some ch => go ch

end Sys2Proof.Machine
end

