-- ==== Sys2Proof/Machine/Accumulation.lean ====
section
/-! DEFINITION. Channel accumulation (42_interleaver.md §3): the commands `CHRDY`, `CHLOST` and `BCLR`. -/

namespace Sys2Proof.Machine

/-- `CHE[c][k] <- 1` for `k` in `0 .. n-1` (R151). -/
def Memory.markLost (m : Memory) (c : Fin 7) (n : Nat) : Memory := forUpTo (fun k m => m.setChe c k true) n m

/-- `CHE[c][k] <- 0` for every channel and `k` in `0 .. n-1` (R152; the loop as one filter is DEDUCED, safe; log entry 15). -/
def Memory.clearErasures (m : Memory) (n : Nat) : Memory := { m with che := m.che.map (fun b => b.clearBelow n) }

/-- `CHSTAT[c] <- 1` (R30). -/
def State.markPresent (s : State) (c : Fin 7) : State := s.withChstat (s.chstat ||| channelBit c)

/-- `CHRDY c` (R150): `ILLEGAL_OPERAND` if `c ≥ 7`; then channel `c` is present. `N` is not read. -/
def execChrdy (c : Nat) (s : State) : Result :=
  withChannel c (.chrdy c) s fun ch => .next (s.markPresent ch)

/-- `CHLOST c` (R151): `ILLEGAL_OPERAND` if `N > NMAX` or `c ≥ 7`; then every position of the batch is marked erased in
channel `c`, which is present. -/
def execChlost (c : Nat) (s : State) : Result :=
  check s.batchTooLong .illegalOperand (.chlost c) s <|
  withChannel c (.chlost c) s fun ch => .next ((s.withMem (s.mem.markLost ch s.batch)).markPresent ch)

/-- `BCLR` (R152): no channel is present and no position `0 .. NMAX-1` of any channel is erased. `N` is not read. -/
def execBclr (s : State) : Result :=
  .next ((s.withMem (s.mem.clearErasures s.cfg.nmax)).withChstat 0)

end Sys2Proof.Machine
end

