-- ==== Sys2Proof/Machine/Gf2.lean ====
section
/-! DEFINITION. The GF(2) linear algebra engine (40_gf2_linear_algebra.md): the matrices G and H, the one mod-2
matrix–vector product, and the commands `MVG` and `MVH`. -/

namespace Sys2Proof.Machine

/-- A binary matrix, row by row. -/
abbrev BitMatrix := List (List (BitVec 1))

/-- `M[i][j]`. -/
def BitMatrix.entry (M : BitMatrix) (i j : Nat) : Bool := (M.getD i []).getD j 0 == 1#1

/-- The generator matrix (R100). -/
def matrixG : BitMatrix :=
  [[1, 1, 0, 1], [1, 0, 1, 1], [1, 0, 0, 0], [0, 1, 1, 1], [0, 1, 0, 0], [0, 0, 1, 0], [0, 0, 0, 1]]

/-- The parity-check matrix (R101). -/
def matrixH : BitMatrix :=
  [[1, 0, 1, 0, 1, 0, 1], [0, 1, 1, 0, 0, 1, 1], [0, 0, 0, 1, 1, 1, 1]]

/-- `MV(M, v)[i]`, the sum mod 2 over `j` of `M[i][j] ∧ v[j]` (R102). -/
def BitMatrix.mulVec (M : BitMatrix) (m : Nat) {n : Nat} (v : BitVec n) : BitVec m :=
  ofBits m (fun i => xorUpTo (fun j => M.entry i.val j && v.getLsbD j) n)

/-- Row `i` of a matrix of `n` columns as a bit mask (R100, R101). -/
def BitMatrix.row (M : BitMatrix) (n i : Nat) : BitVec n := ofBits n (fun j => M.entry i j.val)

/-- Column `j` of a matrix of `m` rows as a bit mask (R100, R106). -/
def BitMatrix.column (M : BitMatrix) (m j : Nat) : BitVec m := ofBits m (fun i => M.entry i.val j)

/-- `enc(d) = MV(G, d)` (R103). -/
def enc (d : DataBlock) : Bits7 := matrixG.mulVec 7 d

/-- `syn(c) = MV(H, c)` (R104). -/
def syn (c : Bits7) : Syndrome := matrixH.mulVec 3 c

/-- `hcol(j)`, column `j` of H (R106). -/
def hcol (j : Nat) : Syndrome := matrixH.column 3 j

/-- `MVG` (R107): `CV <- MV(G, D); CE <- 0`. -/
def execMvg (s : State) : Result := .next (s.withC { v := enc s.regD, e := 0 })

/-- `MVH` (R108): `S <- MV(H, CV & ~CE)`. -/
def execMvh (s : State) : Result := .next (s.withS (syn (s.regC.v &&& ~~~s.regC.e)))

end Sys2Proof.Machine
end

