-- ==== Sys2Proof/Machine/BlockCodec.lean ====
section
/-! DEFINITION. The block codec (41_block_codec.md): the syndrome ROM, data extraction, single-error decode, and the
commands `ENC` and `DEC`. -/

namespace Sys2Proof.Machine

/-- The ROM `SYNPOS` (R120): entry `s` is the 1-based error position `p` and the flip mask `fm`. -/
def synposRom : List (Syndrome × Bits7) :=
  [(0, 0x00), (1, 0x01), (2, 0x02), (3, 0x04), (4, 0x08), (5, 0x10), (6, 0x20), (7, 0x40)]

/-- Entry `s` of `SYNPOS`. -/
def synpos (s : Syndrome) : Syndrome × Bits7 := synposRom.getD s.toNat (0, 0)

/-- The data positions `DPOS` (R122): data bit `d_j` is codeword bit `DPOS[j]`. -/
def dpos : List Nat := [2, 4, 5, 6]

/-- `extract` (R122). -/
def extract (c : Bits7) : DataBlock := ofBits 4 (fun j => c.getLsbD (dpos.getD j.val 0))

/-- What the single-error decoder answers (R123). -/
structure SecResult where
  s    : Syndrome
  p    : Syndrome
  cc   : Bits7
  q    : DataBlock
  corr : Bool
deriving DecidableEq, Repr

/-- `sec_decode`, total on every 7-bit word (R123, R127): the syndrome, its position, the flip (R121), the data. -/
def secDecode (c : Bits7) : SecResult :=
  { s := syn c
    p := (synpos (syn c)).1
    cc := c ^^^ (synpos (syn c)).2
    q := extract (c ^^^ (synpos (syn c)).2)
    corr := (synpos (syn c)).1 != 0 }

/-- `ENC len` (R124): `INVALID_LENGTH` unless `len = 4`; then `CV <- enc(D); CE <- 0`. -/
def execEnc (len : Nat) (s : State) : Result :=
  check (len != 4) .invalidLength (.enc len) s <|
  .next (s.withC { v := enc s.regD, e := 0 })

/-- `DEC len` (R125): `INVALID_LENGTH` unless `len = 7`, then `ERASED_INPUT` if a slot of `C` is erased; then `S`, `P`,
`CC`, `Q` and the flags from `sec_decode(CV)`. -/
def execDec (len : Nat) (s : State) : Result :=
  check (len != 7) .invalidLength (.dec len) s <|
  check (s.regC.e != 0) .erasedInput (.dec len) s <|
  let r := secDecode s.regC.v
  .next ((s.withDecoded r.s r.p r.cc r.q).withDecodeFlags r.corr false false)

end Sys2Proof.Machine
end

