-- ==== Sys2Proof/Machine/Erasure.lean ====
section
/-! DEFINITION. The erasure decoder (43_erasure_decoder.md): partial syndrome, the search over at most 4 candidates, and
the command `EDEC`. -/

namespace Sys2Proof.Machine

/-- The erased indices in ascending order, `u_0 < u_1 < …` (R173). -/
def erasedIndices (e : Bits7) : List Nat := (List.range 7).filter (fun i => e.getLsbD i)

/-- `⊕ { f(u_t) | m[t] = 1 }`: the sum mod 2 over the erased indices that candidate `m` sets to 1 (R173). -/
def candidateSum {w : Nat} (f : Nat → BitVec w) (m : Nat) : List Nat → BitVec w
  | [] => 0
  | i :: rest => (if m % 2 = 1 then f i else 0) ^^^ candidateSum f (m / 2) rest

/-- The image `H_unknown · candidate` of candidate `m` (R173). -/
def candidateImage (e : Bits7) (m : Nat) : Syndrome := candidateSum hcol m (erasedIndices e)

/-- The values of candidate `m` at their codeword positions (R174). -/
def candidateBits (e : Bits7) (m : Nat) : Bits7 := candidateSum (fun i => 1#7 <<< i) m (erasedIndices e)

/-- What the erasure decoder answers (R170). -/
structure EdecResult where
  s       : Syndrome
  cc      : Bits7
  q       : DataBlock
  uncorr  : Bool
  noMatch : Bool
deriving DecidableEq, Repr

/-- `edec` (R170), total on every pair: the degraded output for more than 2 erasures (R177); else the first candidate
whose image is the partial syndrome (R172 to R174), and the placeholder 0 when there is none (R175). -/
def edec (c : TriWord) : EdecResult :=
  if 2 < popcount c.e then { s := 0, cc := 0, q := 0, uncorr := true, noMatch := false }
  else
    let known := c.v &&& ~~~c.e
    let target := syn known
    match (List.range (2 ^ popcount c.e)).find? (fun m => candidateImage c.e m == target) with
    | some m =>
      let cc := known ||| candidateBits c.e m
      { s := target, cc := cc, q := extract cc, uncorr := false, noMatch := false }
    | none => { s := target, cc := known, q := extract known, uncorr := false, noMatch := true }

/-- `EDEC` (R179): `S`, `CC`, `Q` and the flags from `edec(CV, CE)`; `P <- 0` and `CORR <- 0`. -/
def execEdec (s : State) : Result :=
  let r := edec s.regC
  .next ((s.withDecoded r.s 0 r.cc r.q).withDecodeFlags false r.uncorr r.noMatch)

end Sys2Proof.Machine
end

