-- ==== Sys2Proof/Machine/Batch.lean ====
section
/-! DEFINITION. The batch codec (44_batch_and_control.md §1, §2): the per-block choice of decoder and the commands `ENCB`
and `DECB`. -/

namespace Sys2Proof.Machine

/-- `decode_block` (R190): the single-error decoder for a block with no erasure, else the erasure decoder. -/
def decodeBlock (c : TriWord) : DobEntry :=
  if c.e = 0 then
    let r := secDecode c.v
    { data := r.q, corr := r.corr, uncorr := false, noMatch := false, epath := false }
  else
    let r := edec c
    { data := r.q, corr := false, uncorr := r.uncorr, noMatch := r.noMatch, epath := true }

/-- `CWB[k] <- enc(DIB[k])`, no slot erased, for `k` in `0 .. n-1` (R191). -/
def Memory.encodeBatch (m : Memory) (n : Nat) : Memory :=
  forUpTo (fun k m => m.setCwb k { v := enc (m.dibAt k), e := 0 }) n m

/-- `DOB[k] <- decode_block(CWB[k])` for `k` in `0 .. n-1` (R192). -/
def Memory.decodeBatch (m : Memory) (n : Nat) : Memory :=
  forUpTo (fun k m => m.setDob k (decodeBlock (m.cwbAt k))) n m

/-- The OR of one flag of the decoded blocks `0 .. n-1` (R192). -/
def Memory.batchFlag (m : Memory) (n : Nat) (flag : DobEntry → Bool) : Bool :=
  anyUpTo (fun k => flag (decodeBlock (m.cwbAt k))) n

/-- `ENCB` (R191): `ILLEGAL_OPERAND` if `N > NMAX`; then every block of the batch is encoded. -/
def execEncb (s : State) : Result :=
  check s.batchTooLong .illegalOperand .encb s <|
  .next (s.withMem (s.mem.encodeBatch s.batch))

/-- `DECB` (R192): `ILLEGAL_OPERAND` if `N > NMAX`; then every codeword of the batch is decoded, and each decode flag of
`STATUS` is the OR of that flag over the blocks. -/
def execDecb (s : State) : Result :=
  check s.batchTooLong .illegalOperand .decb s <|
  .next ((s.withMem (s.mem.decodeBatch s.batch)).withDecodeFlags
    (s.mem.batchFlag s.batch DobEntry.corr) (s.mem.batchFlag s.batch DobEntry.uncorr)
    (s.mem.batchFlag s.batch DobEntry.noMatch))

end Sys2Proof.Machine
end

