-- ==== Sys2Proof/Machine/Control.lean ====
section
/-! DEFINITION. The control commands (44_batch_and_control.md §3): `NOP` and `CLRERR`. -/

namespace Sys2Proof.Machine

/-- `NOP` (R193): nothing. -/
def execNop (s : State) : Result := .next s

/-- `CLRERR` (R194): acknowledge a fault. -/
def execClrerr (s : State) : Result := .next s.acknowledge

end Sys2Proof.Machine
end

