-- ==== Sys2Proof/Machine/Interleaver.lean ====
section
/-! DEFINITION. The interleaver and de-interleaver (42_interleaver.md §2): a transposition between the codeword buffer
and the channel buffers that moves value and erasure mark together (R141), and the commands `ILV`, `ILV1`, `DIL`,
`DILB`. -/

namespace Sys2Proof.Machine

/-- `CHV[c][k] <- w.v[c]; CHE[c][k] <- w.e[c]` (R141). -/
def Memory.scatterSlot (m : Memory) (k : Nat) (w : TriWord) (c : Fin 7) : Memory :=
  (m.setChv c k (w.v.getLsbD c.val)).setChe c k (w.e.getLsbD c.val)

/-- The 1-to-7 network (R143): the slots of a codeword onto position `k` of the channels, for `c` in `0 .. 6`. -/
def Memory.scatter (m : Memory) (k : Nat) (w : TriWord) : Memory :=
  channels.foldl (fun m c => m.scatterSlot k w c) m

/-- The 7-to-1 network (R144): slot `c` of the word is `(CHV[c][k], CHE[c][k])`. -/
def Memory.gather (m : Memory) (k : Nat) : TriWord :=
  { v := ofBits 7 (fun c => m.chvAt c k), e := ofBits 7 (fun c => m.cheAt c k) }

/-- The transpose of `CWB[0 .. n-1]` onto the channels (R142). -/
def Memory.interleave (m : Memory) (n : Nat) : Memory := forUpTo (fun k m => m.scatter k (m.cwbAt k)) n m

/-- The transpose of the channels' positions `0 .. n-1` into `CWB` (R145). -/
def Memory.deinterleave (m : Memory) (n : Nat) : Memory := forUpTo (fun k m => m.setCwb k (m.gather k)) n m

/-- `ILV` (R142): `ILLEGAL_OPERAND` if `N > NMAX`; then the transpose, and all seven channels present. -/
def execIlv (s : State) : Result :=
  check s.batchTooLong .illegalOperand .ilv s <|
  .next ((s.withMem (s.mem.interleave s.batch)).withChstat 0x7F#7)

/-- `ILV1 k` (R143): `ILLEGAL_OPERAND` if `N > NMAX` or `k ≥ N`; then `C` onto position `k` of the channels. -/
def execIlv1 (k : Nat) (s : State) : Result :=
  check s.batchTooLong .illegalOperand (.ilv1 k) s <|
  check (s.positionOutside k) .illegalOperand (.ilv1 k) s <|
  .next (s.withMem (s.mem.scatter k s.regC))

/-- `DIL k` (R144): `ILLEGAL_OPERAND` if `N > NMAX` or `k ≥ N`, `PARTIAL_BATCH` unless all channels are present; then
position `k` of the channels into `C`. -/
def execDil (k : Nat) (s : State) : Result :=
  check s.batchTooLong .illegalOperand (.dil k) s <|
  check (s.positionOutside k) .illegalOperand (.dil k) s <|
  check s.batchPartial .partialBatch (.dil k) s <|
  .next (s.withC (s.mem.gather k))

/-- `DILB` (R145): `ILLEGAL_OPERAND` if `N > NMAX`, `PARTIAL_BATCH` unless all channels are present; then the transpose
into `CWB`. -/
def execDilb (s : State) : Result :=
  check s.batchTooLong .illegalOperand .dilb s <|
  check s.batchPartial .partialBatch .dilb s <|
  .next (s.withMem (s.mem.deinterleave s.batch))

end Sys2Proof.Machine
end

