-- ==== Sys2Proof/Machine/Dispatch.lean ====
section
/-! DEFINITION. `exec`: the meaning of every command, one arm per constructor of `Instr`. A meaning is the command's
checks and pseudocode; the sticky-error preamble of R214 stands before it, in `perform`. -/

namespace Sys2Proof.Machine

def exec (i : Instr) (s : State) : Host.Outcome State Fault Refusal :=
  match i with
  | .nop => Sys2Proof.Machine.execNop s
  | .mvg => Sys2Proof.Machine.execMvg s
  | .mvh => Sys2Proof.Machine.execMvh s
  | .clrerr => Sys2Proof.Machine.execClrerr s
  | .enc len => Sys2Proof.Machine.execEnc len s
  | .dec len => Sys2Proof.Machine.execDec len s
  | .edec => Sys2Proof.Machine.execEdec s
  | .ilv => Sys2Proof.Machine.execIlv s
  | .ilv1 k => Sys2Proof.Machine.execIlv1 k s
  | .dil k => Sys2Proof.Machine.execDil k s
  | .dilb => Sys2Proof.Machine.execDilb s
  | .chrdy c => Sys2Proof.Machine.execChrdy c s
  | .chlost c => Sys2Proof.Machine.execChlost c s
  | .bclr => Sys2Proof.Machine.execBclr s
  | .encb => Sys2Proof.Machine.execEncb s
  | .decb => Sys2Proof.Machine.execDecb s

end Sys2Proof.Machine
end

