-- ==== Sys2Proof/Machine/HostPort.lean ====
section
/-! DEFINITION. The host port (20_memory.md): the address map, the host's reads and writes, the command a write to `CMD`
issues with the sticky-error preamble of R214, and the service of one event of the bus. -/

namespace Sys2Proof.Machine

/-- The locations of the address map (R51). Buffer indices are those the map has room for (`k < 1024`, `w < 64`);
whether the location exists for this `NMAX` is decided where it is read or written (R52). -/
inductive Location where
  | cmd | status | d | c | s | p | q | cc | n | chstat | errcmd | id
  | dib (k : Nat)
  | cwb (k : Nat)
  | dob (k : Nat)
  | chv (c : Fin 7) (w : Nat)
  | che (c : Fin 7) (w : Nat)
  | reserved
deriving DecidableEq, Repr

/-- The registers of R51, at offsets 0x00, 0x04, …, 0x2C. -/
def registerMap : List Location :=
  [.cmd, .status, .d, .c, .s, .p, .q, .cc, .n, .chstat, .errcmd, .id]

/-- A word of a channel region that starts at `region`: stride 0x100 a channel, 64 words each (R51, R59). -/
def channelWordAt (region a : Nat) (place : Fin 7 → Nat → Location) : Location :=
  match channel? ((a - region) / 0x100) with
  | none => .reserved
  | some c => place c ((a - region) % 0x100 / 4)

/-- What stands at an aligned offset (R51); a reserved offset is `reserved` (R52). -/
def locate (off : Offset) : Location :=
  let a := off.toNat
  if a < 0x1000 then registerMap.getD (a / 4) .reserved
  else if a < 0x2000 then .dib ((a - 0x1000) / 4)
  else if a < 0x3000 then .cwb ((a - 0x2000) / 4)
  else if a < 0x4000 then .dob ((a - 0x3000) / 4)
  else if a < 0x5000 then channelWordAt 0x4000 a .chv
  else if a < 0x6000 then channelWordAt 0x5000 a .che
  else .reserved

/-- The constant `ID` (R33). -/
def idWord (cfg : Config) : Word := ((((1#4 ++ 3#4) ++ 4#4) ++ 7#4) ++ BitVec.ofNat 16 cfg.nmax)

/-- The layout of `C` and of a `CWB` entry (R51, R58): values in bits 6:0, erasure mask in bits 14:8. -/
def TriWord.word (c : TriWord) : Word := c.v.setWidth 32 ||| c.e.setWidth 32 <<< 8

/-- The fields a write of `C` or of a `CWB` entry stores (R51, R58); the other bits are ignored (R52). -/
def TriWord.ofWord (w : Word) : TriWord := { v := w.extractLsb' 0 7, e := w.extractLsb' 8 7 }

/-- Word `w` of a channel (R59): position `32·w + j` at bit `j`; a position at or beyond `NMAX` reads 0. -/
def packChannel (nmax : Nat) (slot : Nat → Bool) (w : Nat) : Word :=
  ofBits 32 (fun j => decide (32 * w + j.val < nmax) && slot (32 * w + j.val))

/-- A write of channel word `w` (R59): bit `j` to position `32·w + j`; a position at or beyond `NMAX` is ignored. -/
def unpackChannel (nmax : Nat) (put : Nat → Bool → Memory → Memory) (w : Nat) (v : Word) (m : Memory) : Memory :=
  forUpTo (fun j m => if 32 * w + j < nmax then put (32 * w + j) (v.getLsbD j) m else m) 32 m

/-- A buffer entry exists for `k < NMAX` (R52). -/
def State.hasEntry (s : State) (k : Nat) : Bool := decide (k < s.cfg.nmax)

/-- `MemRead` of a location (R51, R52, R53): the registers and buffers in their layouts, 0 where nothing is. -/
def State.readAt (s : State) : Location → Word
  | .cmd => 0
  | .status => s.status.word
  | .d => s.regD.setWidth 32
  | .c => s.regC.word
  | .s => s.regS.setWidth 32
  | .p => s.regP.setWidth 32
  | .q => s.regQ.setWidth 32
  | .cc => s.regCC.setWidth 32
  | .n => s.regN.setWidth 32
  | .chstat => s.chstat.setWidth 32
  | .errcmd => s.errcmd
  | .id => idWord s.cfg
  | .dib k => if s.hasEntry k then (s.mem.dibAt k).setWidth 32 else 0
  | .cwb k => if s.hasEntry k then (s.mem.cwbAt k).word else 0
  | .dob k => if s.hasEntry k then (s.mem.dobAt k).word else 0
  | .chv c w => packChannel s.cfg.nmax (s.mem.chvAt c) w
  | .che c w => packChannel s.cfg.nmax (s.mem.cheAt c) w
  | .reserved => 0

/-- The state a `MemWrite` of a location other than `CMD` leaves (R51, R52, R58, R59): a write to a read-only or
reserved location, or to an entry at or beyond `NMAX`, is ignored. -/
def State.writeAt (s : State) (v : Word) : Location → State
  | .d => { s with regD := v.extractLsb' 0 4 }
  | .c => { s with regC := TriWord.ofWord v }
  | .n => { s with regN := v.extractLsb' 0 16 }
  | .dib k => if s.hasEntry k then s.withMem (s.mem.setDib k (v.extractLsb' 0 4)) else s
  | .cwb k => if s.hasEntry k then s.withMem (s.mem.setCwb k (TriWord.ofWord v)) else s
  | .chv c w => s.withMem (unpackChannel s.cfg.nmax (fun k b m => m.setChv c k b) w v s.mem)
  | .che c w => s.withMem (unpackChannel s.cfg.nmax (fun k b m => m.setChe c k b) w v s.mem)
  | .cmd | .status | .s | .p | .q | .cc | .chstat | .errcmd | .id | .dob _ | .reserved => s

/-- `MemRead(a, 4)` (R53). -/
def State.memRead (s : State) (off : Offset) : Word := s.readAt (locate off)

/-- The byte a byte-addressed host finds at an offset: the word at the aligned offset below it is little-endian (R55). -/
def State.hostByte (s : State) (off : Offset) : BitVec 8 :=
  (s.memRead (off &&& 0xFFFC#16)).extractLsb' (8 * (off.toNat % 4)) 8

/-- `perform(w)` (R214, R57): while a fault is pending every word but `CLRERR` is dropped without effect; else the word
is decoded, an illegal word faults with `ILLEGAL_COMMAND` (R76), and a command is executed. -/
def perform (w : Word) (s : State) : Result :=
  if s.errPending then (if w = 0x0F000000#32 then .next s.acknowledge else .next s)
  else
    match decode w with
    | .illegal _ => .next (s.raise .illegalCommand w)
    | .command i => exec i s

/-- `MemWrite(a, 4, v)` (R53): a write to `CMD` issues command `v` (R57), any other stores. -/
def State.memWrite (s : State) (off : Offset) (v : Word) : Result :=
  match locate off with
  | .cmd => perform v s
  | loc => .next (s.writeAt v loc)

/-- The offset of an absolute address in the 64 KiB window at `H74CE_BASE` (R50). -/
def windowOffset (cfg : Config) (addr : Nat) : Option Offset :=
  if cfg.base ≤ addr ∧ addr < cfg.base + 0x10000 then some (BitVec.ofNat 16 (addr - cfg.base)) else none

/-- Why a host access in the window is not performed, if it is not: it is not 32 bits wide, or it is misaligned (R54;
DEDUCED, safe; log entry 10). -/
def accessFault (agent size : Nat) (off : Offset) : Option Fault :=
  if size ≠ 4 then some (.accessError agent (.width size) 0)
  else if off.toNat % 4 ≠ 0 then some (.accessError agent (.misaligned off) 0)
  else none

/-- A host access at an absolute address: `go` performs it at its offset, if H74CE performs it at all. -/
def hostAccess (agent addr size : Nat) (s : State) (go : Offset → Result) : Result :=
  match windowOffset s.cfg addr with
  | none => .fault (.outsideRegisterSpace agent addr)
  | some off =>
    match accessFault agent size off with
    | some f => .fault f
    | none => go off

/-- The state with an answer on the host bus. -/
def State.answer (s : State) (r : BusReply) : State := { s with reply := r }

/-- One event of the bus: a read delivers the word and changes nothing else (R60); a write stores or issues a command
(R57); reset resets (R240). -/
def serve (ev : BusEvent) (s : State) : Result :=
  match ev with
  | .read agent addr size =>
    hostAccess agent addr size s fun off => .next (s.answer (.data agent (s.memRead off)))
  | .write agent addr size v =>
    hostAccess agent addr size s fun off => (s.answer (.written agent)).memWrite off v
  | .reset => .next s.applyReset

/-- The bus serves its oldest event, one at a time (R61); with none pending, H74CE waits and changes nothing (R21,
R245; DEDUCED, safe; log entry 11). -/
def serveBus (s : State) : Result :=
  match s.bus with
  | [] => .next s
  | ev :: rest => serve ev { s with bus := rest }

/-- The write of `CMD` by which a host issues a command word (R57). -/
def issueEvent (cfg : Config) (agent : Nat) (w : Word) : BusEvent := .write agent cfg.base 4 w

/-- The state in which the next event of the bus is agent 0's write of `w` to `CMD`. -/
def State.issueNext (s : State) (w : Word) : State := { s with bus := issueEvent s.cfg 0 w :: s.bus }

end Sys2Proof.Machine
end

