-- ==== Sys2Proof/Machine/Step.lean ====
section
/-! DEFINITION. One step of the machine: the bus serves one event, and a command is one atomic step (R13, R250). -/

namespace Sys2Proof.Machine

/-- One step: the oldest event of the bus. -/
def step (s : State) : Host.Outcome State Fault Refusal := serveBus s

/-- The state whose next step runs the command word `w`, bits numbered as spec/opcode_table.json numbers them. H74CE
fetches nothing (R63): a command comes to it as a host's write to `CMD`, so the word is put on the bus as the next such
write (DESIGN CHOICE, safe; log entry 8). -/
def State.withFetchWord (s : State) (nbits w : Nat) : State := s.issueNext (BitVec.ofNat 32 (w % 2 ^ nbits))

end Sys2Proof.Machine
end

