-- ==== Sys2Proof/Machine/Assembler.lean ====
section
/-! DEFINITION. The spec's assembly text (R79): one line of a host program as a command word or a host access.
Separators, letter case and the names of buffer locations are the model's (DESIGN CHOICE, safe; log entry 13). -/

namespace Sys2Proof.Machine

/-- A line of a host program (R79). -/
inductive HostLine where
  /-- A command line: it stands for `WR CMD, word`. -/
  | command (w : Word)
  /-- `WR off, v`: `MemWrite(off, 4, v)`. -/
  | wr (off : Offset) (v : Word)
  /-- `RD off -> v`: `MemRead(off, 4)`, expected to return `v`. -/
  | rd (off : Offset) (v : Word)
deriving DecidableEq, Repr

/-- The characters between the words of a line. -/
def isSeparator (ch : Char) : Bool := ch == ' ' || ch == ','

/-- A finished word before the words that follow it; an empty one is no word. -/
def flushWord (cur : List Char) (words : List (List Char)) : List (List Char) :=
  if cur.isEmpty then words else cur :: words

/-- The words of a line; `cur` is the word being read. -/
def wordsFrom (cur : List Char) : List Char → List (List Char)
  | [] => flushWord cur []
  | ch :: rest => if isSeparator ch then flushWord cur (wordsFrom [] rest) else wordsFrom (cur ++ [ch]) rest

/-- The value of a digit, if it is one of the base. -/
def digitValue (base : Nat) (ch : Char) : Option Nat :=
  let n := ch.toNat
  let v := if 48 ≤ n ∧ n ≤ 57 then n - 48 else if 97 ≤ n ∧ n ≤ 102 then n - 87
    else if 65 ≤ n ∧ n ≤ 70 then n - 55 else base
  if v < base then some v else none

/-- The digits of a number of a base, the most significant first. -/
def digitsFrom (base acc : Nat) : List Char → Option Nat
  | [] => some acc
  | ch :: rest => (digitValue base ch).bind fun v => digitsFrom base (base * acc + v) rest

/-- A number: decimal, or hexadecimal after `0x`. -/
def numeral : List Char → Option Nat
  | [] => none
  | ['0', 'x'] => none
  | '0' :: 'x' :: rest => digitsFrom 16 0 rest
  | ch :: rest => digitsFrom 10 0 (ch :: rest)

/-- A number that fits `n` bits. -/
def numeralBelow (n : Nat) (word : List Char) : Option Nat :=
  (numeral word).filter (fun v => v < 2 ^ n)

/-- The operand a pseudo-command stands for: `ENC` is `ENC 4` and `DEC` is `DEC 7`. -/
def pseudoOperand (mnemonic : String) : Option Nat :=
  if mnemonic = "ENC" then some 4 else if mnemonic = "DEC" then some 7 else none

/-- The command of a row, given the operand of its line: `len` if the row's mask leaves `LEN` free, `k` or `c` if it
leaves `ARG` free, and no operand otherwise; an operand given to a command that takes none is refused. -/
def rowCommand (r : OpRow) (operand : Option Nat) : Option Instr :=
  if lenField r.mask = 0 then (operand <|> pseudoOperand r.mnemonic).map (fun n => r.build n 0)
  else if argField r.mask = 0 then operand.map (fun n => r.build 0 n)
  else match operand with
    | none => some (r.build 0 0)
    | some _ => none

/-- The word of a command; an operand that does not fit its field is refused. -/
def assembleInstr (i : Instr) : Option Word := if i.wf then some (encode i) else none

/-- The words of a command line. -/
def assembleCommand (mnemonic : List Char) (operand : Option Nat) : Option Word :=
  (opTable.find? (fun r => r.mnemonic.toList == mnemonic)).bind fun r => (rowCommand r operand).bind assembleInstr

/-- The names of the registers of R51, in the order of their offsets. -/
def registerNames : List String :=
  ["CMD", "STATUS", "D", "C", "S", "P", "Q", "CC", "N", "CHSTAT", "ERRCMD", "ID"]

/-- A buffer entry `NAME[k]` of R51: the offset of its word. -/
def entryOffset (region : Nat) (index : List Char) : Option Nat :=
  (numeral (index.takeWhile (fun ch => ch != ']'))).bind fun k =>
    if index.dropWhile (fun ch => ch != ']') = [']'] ∧ k < 1024 then some (region + 4 * k) else none

/-- Word `w` of channel `c`, written `NAME[c].w<w>`: its offset (R51, R59). `c` is exactly one decimal digit, while `w` is any
number: R79 and R51 give no text for either (DESIGN CHOICE, safe; log entry 13). -/
def channelWordOffset (region : Nat) (index : List Char) : Option Nat :=
  match index with
  | c :: ']' :: '.' :: 'w' :: w =>
    (numeral [c]).bind fun c => (numeral w).bind fun w =>
      if c < 7 ∧ w < 64 then some (region + 0x100 * c + 4 * w) else none
  | _ => none

/-- A buffer location by name. -/
def bufferOffset (place : List Char) : Option Nat :=
  match place with
  | 'D' :: 'I' :: 'B' :: '[' :: index => entryOffset 0x1000 index
  | 'C' :: 'W' :: 'B' :: '[' :: index => entryOffset 0x2000 index
  | 'D' :: 'O' :: 'B' :: '[' :: index => entryOffset 0x3000 index
  | 'C' :: 'H' :: 'V' :: '[' :: index => channelWordOffset 0x4000 index
  | 'C' :: 'H' :: 'E' :: '[' :: index => channelWordOffset 0x5000 index
  | _ => none

/-- The offset an access line names: a register or buffer location of R51, or a number. -/
def placeOffset (place : List Char) : Option Offset :=
  let named := (registerNames.findIdx? (fun name => name.toList == place)).map (fun i => 4 * i)
  ((named <|> bufferOffset place) <|> numeralBelow 16 place).map (fun n => BitVec.ofNat 16 n)

/-- One line of a host program; `none` is a line the assembler refuses. R79 has no line that repeats a location's offset in
parentheses, nor one with a comment, as some listings of 95_test_vectors.md print them: such a line is refused (DESIGN
CHOICE, safe; log entry 13). -/
def assemble (line : String) : Option HostLine :=
  match wordsFrom [] line.toList with
  | [['W', 'R'], place, v] =>
    (placeOffset place).bind fun off => (numeralBelow 32 v).map fun n => .wr off (BitVec.ofNat 32 n)
  | [['R', 'D'], place, ['-', '>'], v] =>
    (placeOffset place).bind fun off => (numeralBelow 32 v).map fun n => .rd off (BitVec.ofNat 32 n)
  | [mnemonic] => (assembleCommand mnemonic none).map .command
  | [mnemonic, operand] => (numeral operand).bind fun n => (assembleCommand mnemonic (some n)).map .command
  | _ => none

/-- The host access a line makes (R79): a command line is a write of its word to `CMD`. -/
def HostLine.event (cfg : Config) (agent : Nat) : HostLine → BusEvent
  | .command w => issueEvent cfg agent w
  | .wr off v => .write agent (cfg.base + off.toNat) 4 v
  | .rd off _ => .read agent (cfg.base + off.toNat) 4

/-- Whether the answer to a line is the one it expects. -/
def HostLine.expects (agent : Nat) (reply : BusReply) : HostLine → Bool
  | .command _ => reply == .written agent
  | .wr _ _ => reply == .written agent
  | .rd _ v => reply == .data agent v

end Sys2Proof.Machine
end

