-- ==== Sys2Proof/Safety.lean ====
section
/-! DEFINITION. What claims about runs are stated in: the invariant every step keeps, a run without a fault (the ghost
record of the modelling note of 60_exceptions.md), and the spec's own tables about the commands, read off as functions:
which registers and flags a command writes (R23, R29, R31, R35) and which fault it reports first (R215). -/

namespace Sys2Proof

open Machine

/-- No command has faulted and no illegal word was issued (modelling note of 60_exceptions.md). -/
abbrev Machine.State.NoFaultRaised (s : State) : Prop := s.faultLog = []

/-- The commands that read `N` against `NMAX` (R29, R215). -/
def Instr.checksBatch : Instr → Bool
  | .ilv | .ilv1 _ | .dil _ | .dilb | .chlost _ | .encb | .decb => true
  | .nop | .mvg | .mvh | .clrerr | .enc _ | .dec _ | .edec | .chrdy _ | .bclr => false

/-- The commands that write `CORR`, `UNCORR` and `NOMATCH` (R31). -/
def Instr.writesDecodeFlags : Instr → Bool
  | .dec _ | .edec | .decb => true
  | .nop | .mvg | .mvh | .clrerr | .enc _ | .ilv | .ilv1 _ | .dil _ | .dilb | .chrdy _ | .chlost _ | .bclr
  | .encb => false

/-- The `ARG` range of R215: `k ≥ N` for `ILV1`, `DIL`; `c ≥ 7` for `CHRDY`, `CHLOST`. -/
def Instr.argOutside (i : Instr) (s : State) : Bool :=
  match i with
  | .ilv1 k => decide (s.regN.toNat ≤ k)
  | .dil k => decide (s.regN.toNat ≤ k)
  | .chrdy c => decide (7 ≤ c)
  | .chlost c => decide (7 ≤ c)
  | .nop | .mvg | .mvh | .clrerr | .enc _ | .dec _ | .edec | .ilv | .dilb | .bclr | .encb | .decb => false

/-- The `LEN` rule of R215: `ENC` with `LEN ≠ 4`, `DEC` with `LEN ≠ 7`. -/
def Instr.lengthWrong : Instr → Bool
  | .enc len => len != 4
  | .dec len => len != 7
  | .nop | .mvg | .mvh | .clrerr | .edec | .ilv | .ilv1 _ | .dil _ | .dilb | .chrdy _ | .chlost _ | .bclr
  | .encb | .decb => false

/-- `DEC` with an erased slot in `C` (R215). -/
def Instr.inputErased (i : Instr) (s : State) : Bool :=
  match i with
  | .dec _ => decide (∃ j : Fin 7, s.regC.e.getLsbD j = true)
  | .nop | .mvg | .mvh | .clrerr | .enc _ | .edec | .ilv | .ilv1 _ | .dil _ | .dilb | .chrdy _ | .chlost _ | .bclr
  | .encb | .decb => false

/-- `DIL` or `DILB` with a channel that is not present (R215). -/
def Instr.channelMissing (i : Instr) (s : State) : Bool :=
  match i with
  | .dil _ | .dilb => decide (∃ c : Fin 7, s.chstat.getLsbD c = false)
  | .nop | .mvg | .mvh | .clrerr | .enc _ | .dec _ | .edec | .ilv | .ilv1 _ | .chrdy _ | .chlost _ | .bclr
  | .encb | .decb => false

/-- Whether a decoded command meets the condition of a fault in a state (R210, R215). -/
def Instr.meets (i : Instr) (s : State) : ErrCode → Bool
  | .illegalCommand => false
  | .illegalOperand => (i.checksBatch && decide (s.cfg.nmax < s.regN.toNat)) || i.argOutside s
  | .invalidLength => i.lengthWrong
  | .erasedInput => i.inputErased s
  | .partialBatch => i.channelMissing s

/-- The order in which faults are reported (R215). -/
def Machine.faultPriority : List ErrCode := [.illegalCommand, .illegalOperand, .invalidLength, .erasedInput, .partialBatch]

/-- The fault R215 has a decoded command report in a state, if any. -/
def Instr.firstFault (i : Instr) (s : State) : Option ErrCode := faultPriority.find? (i.meets s)

/-- What a `DOB` entry can hold (R37, R190): the single-error path reports no erasure flag, the erasure path no `CORR`,
and an uncorrectable block has the degraded data 0 and no `NOMATCH`. -/
abbrev Machine.DobEntry.Legal (r : DobEntry) : Prop :=
  (r.epath = false → r.uncorr = false ∧ r.noMatch = false) ∧ (r.epath = true → r.corr = false) ∧
    (r.uncorr = true → r.data = 0 ∧ r.noMatch = false)

/-- The invariant of every step. -/
structure Machine.State.Inv (s : State) : Prop where
  /-- `NMAX` is one the address map admits (R6). -/
  config : s.cfg.Valid
  /-- The buffers are in canonical form and hold nothing at or beyond `NMAX` (R20). -/
  memory : s.mem.wf s.cfg.nmax
  /-- `ERR` values 6 to 15 are never produced (R210, U8). -/
  errRange : s.status.err.toNat ≤ 5
  /-- `ERRCMD` is 0 when `ERR = 0` (R32). -/
  errcmdClear : s.status.err = 0 → s.errcmd = 0
  /-- While a fault is pending, `ERR` and `ERRCMD` are those of the last fault raised (R214, R221), and the word is
  illegal exactly when the code says so (R210). -/
  errNamed : s.status.err ≠ 0 → ∃ e rest, s.faultLog = ⟨e, s.errcmd⟩ :: rest ∧ s.status.err = e.code ∧
    (e = .illegalCommand ↔ ∃ why, decode s.errcmd = .illegal why)
  /-- `Q` is the data of `CC` (R27, R28). -/
  extracted : s.regQ = extract s.regCC
  /-- Every `DOB` entry is one `decode_block` can give (R37). -/
  results : ∀ k, (s.mem.dobAt k).Legal

end Sys2Proof
end

