-- ==== Sys2Proof/Certificates/Slice0/Obligations.lean ====
section
/-! DEFINITION. The statements about this model, each formalising rules of spec/. The formulas of the spec that a
statement compares the model with are written out again in `Sys2Proof.Claims`, from the rules and not from the model. -/

namespace Sys2Proof.Claims

open Sys2Proof.Machine

/-- A bit at its place in a vector. -/
def bitAt (w : Nat) (b : Bool) (i : Nat) : BitVec w := if b then 1#w <<< i else 0#w

/-- The codeword of R103, written out bit by bit. -/
def codewordOf (d : DataBlock) : Bits7 :=
  let d0 := d.getLsbD 0
  let d1 := d.getLsbD 1
  let d2 := d.getLsbD 2
  let d3 := d.getLsbD 3
  bitAt 7 (d0 ^^ d1 ^^ d3) 0 ||| bitAt 7 (d0 ^^ d2 ^^ d3) 1 ||| bitAt 7 d0 2 ||| bitAt 7 (d1 ^^ d2 ^^ d3) 3 |||
    bitAt 7 d1 4 ||| bitAt 7 d2 5 ||| bitAt 7 d3 6

/-- The syndrome of R104, written out bit by bit. -/
def syndromeOf (c : Bits7) : Syndrome :=
  let b := c.getLsbD
  bitAt 3 (b 0 ^^ b 2 ^^ b 4 ^^ b 6) 0 ||| bitAt 3 (b 1 ^^ b 2 ^^ b 5 ^^ b 6) 1 |||
    bitAt 3 (b 3 ^^ b 4 ^^ b 5 ^^ b 6) 2

/-- The flip of R121: for position `p ≠ 0` the bit `p − 1`, and nothing for `p = 0`. -/
def flipMask (p : Syndrome) : Bits7 := if p = 0 then 0 else 1#7 <<< (p.toNat - 1)

/-- The data bits of R122, at codeword indices 2, 4, 5, 6. -/
def dataOf (c : Bits7) : DataBlock :=
  bitAt 4 (c.getLsbD 2) 0 ||| bitAt 4 (c.getLsbD 4) 1 ||| bitAt 4 (c.getLsbD 5) 2 ||| bitAt 4 (c.getLsbD 6) 3

/-- The state a fault leaves (R212): `STATUS.ERR` is the code, `ERRCMD` the word, and the ghost record keeps both. -/
def faulted (s : State) (e : ErrCode) (code : BitVec 4) (w : Word) : State :=
  { s with status := { s.status with err := code }, errcmd := w, faultLog := ⟨e, w⟩ :: s.faultLog }

/-- The fields R75 admits for each `OPC`: the unused ones are 0, and no other `OPC` is admitted. -/
def legalFields (opc len : BitVec 8) (arg : BitVec 16) : Bool :=
  ((opc == 0x00 || opc == 0x01 || opc == 0x02 || opc == 0x0F || opc == 0x12 || opc == 0x20 || opc == 0x23 ||
      opc == 0x32 || opc == 0x40 || opc == 0x41) && len == 0 && arg == 0) ||
    ((opc == 0x10 || opc == 0x11) && arg == 0) ||
    ((opc == 0x21 || opc == 0x22 || opc == 0x30 || opc == 0x31) && len == 0)

/-- The texts of a number that R79 admits, with `z` zeros before its digits: decimal, and hexadecimal after `0x` (that the
letters may be of either case is the model's choice, log entry 13). -/
def numberTexts (z n : Nat) : List String :=
  [String.ofList (List.replicate z '0' ++ Nat.toDigits 10 n),
    "0x" ++ String.ofList (List.replicate z '0' ++ Nat.toDigits 16 n),
    "0x" ++ String.ofList (List.replicate z '0' ++ (Nat.toDigits 16 n).map Char.toUpper)]

/-- The line of a command with operand `n`, when the field of the operand holds the numbers up to `max` (R79). -/
def operandLine (max n : Nat) (i : Instr) : Option HostLine := if n ≤ max then some (.command (encode i)) else none

/-- A list of commands, one after the other. -/
def execAll : List Instr → State → Result
  | [], s => .next s
  | i :: rest, s =>
    match exec i s with
    | .next t => execAll rest t
    | .fault f => .fault f
    | .refused r => .refused r

/-- `ILV1 k` for `k` in `0 .. n-1`, each after loading `C` from `CWB[k]` (R143). -/
def scatterEach : Nat → State → Result
  | 0, s => .next s
  | n + 1, s =>
    match scatterEach n s with
    | .next t => exec (.ilv1 n) { t with regC := t.mem.cwbAt n }
    | .fault f => .fault f
    | .refused r => .refused r

/-- The offset of a word of a region. -/
def wordOffset (region k : Nat) : Offset := BitVec.ofNat 16 (region + 4 * k)

/-- The offset of word `w` of channel `c` (R59). -/
def channelOffset (region : Nat) (c : Fin 7) (w : Nat) : Offset := BitVec.ofNat 16 (region + 0x100 * c.val + 4 * w)

/-- The reserved ranges of R51. -/
def reservedOffset (off : Offset) : Prop :=
  (0x0030 ≤ off.toNat ∧ off.toNat ≤ 0x0FFC) ∨ (0x4700 ≤ off.toNat ∧ off.toNat ≤ 0x4FFC) ∨
    (0x5700 ≤ off.toNat ∧ off.toNat ≤ 0xFFFC)

end Sys2Proof.Claims

open Sys2Proof Sys2Proof.Machine Sys2Proof.Claims

/-! ## Encoding -/

/-- One word of each row, and operands at both ends of their fields, decode as R75 says. -/
def Obligations.SpecWordsDecode : Prop :=
  decode 0x00000000 = .command .nop ∧ decode 0x01000000 = .command .mvg ∧ decode 0x02000000 = .command .mvh ∧
  decode 0x0F000000 = .command .clrerr ∧ decode 0x10040000 = .command (.enc 4) ∧
  decode 0x11070000 = .command (.dec 7) ∧ decode 0x11FF0000 = .command (.dec 255) ∧
  decode 0x12000000 = .command .edec ∧ decode 0x20000000 = .command .ilv ∧ decode 0x21000002 = .command (.ilv1 2) ∧
  decode 0x2200FFFF = .command (.dil 65535) ∧ decode 0x23000000 = .command .dilb ∧
  decode 0x30000006 = .command (.chrdy 6) ∧ decode 0x31000003 = .command (.chlost 3) ∧
  decode 0x32000000 = .command .bclr ∧ decode 0x40000000 = .command .encb ∧ decode 0x41000000 = .command .decb

/-- Decoding the word of a well-formed command gives that command, for every operand its field holds. -/
def Obligations.DecodeOfEncode : Prop :=
  ∀ i : Instr, i.WellFormed → decode (encode i) = .command i

/-- A word that decodes is the word of the command it decodes to, so `ERRCMD` holds the word the host wrote. -/
def Obligations.EncodeOfDecode : Prop :=
  ∀ (w : Word) (i : Instr), decode w = .command i → i.WellFormed ∧ encode i = w

/-- R76: the words that match no row are exactly those with an unlisted `OPC` or a nonzero must-be-zero field, and
performing one faults with `ILLEGAL_COMMAND` (R210, R212) and changes nothing else but the model's ghost record of faults
(DESIGN CHOICE, log entry 5). -/
def Obligations.IllegalWordsFault : Prop :=
  ∀ w : Word,
    ((∃ why, decode w = .illegal why) ↔ legalFields (opcField w) (lenField w) (argField w) = false) ∧
    (legalFields (opcField w) (lenField w) (argField w) = false →
      ∀ s : State, s.status.err = 0 → perform w s = .next (faulted s .illegalCommand 2 w))

/-- R78: at most one row matches any word, the decoder answers the command of the row that does, and a word that no row
matches is illegal. -/
def Obligations.AtMostOneRowMatches : Prop :=
  ∀ w : Word, (opTable.filter (fun r => r.admits w)).length ≤ 1 ∧
    (∀ r ∈ opTable, w &&& r.mask = r.pattern →
      decode w = .command (r.build (lenField w).toNat (argField w).toNat)) ∧
    ((∀ r ∈ opTable, w &&& r.mask ≠ r.pattern) → ∃ why, decode w = .illegal why)

/-- R79: for every number, in every text of it, a command with that operand assembles to the word of the command with
exactly that operand if it fits its field (255 for `len`, 65535 for `k` and `c`) and is refused if it does not; an operand
given to a command that takes none is refused; a bare mnemonic of such a command is its word, and bare `ENC` and `DEC` are
`ENC 4` and `DEC 7`. A bare mnemonic of a command that needs `k` or `c` is refused (the model's, log entry 13). Whatever
command line is taken gives the word of one well-formed command, and that word decodes to it. -/
def Obligations.AssembledLinesDecode : Prop :=
  (∀ (z n : Nat) (text : String), text ∈ numberTexts z n →
    assemble ("ENC " ++ text) = operandLine 255 n (.enc n) ∧
    assemble ("DEC " ++ text) = operandLine 255 n (.dec n) ∧
    assemble ("ILV1 " ++ text) = operandLine 65535 n (.ilv1 n) ∧
    assemble ("DIL " ++ text) = operandLine 65535 n (.dil n) ∧
    assemble ("CHRDY " ++ text) = operandLine 65535 n (.chrdy n) ∧
    assemble ("CHLOST " ++ text) = operandLine 65535 n (.chlost n) ∧
    ∀ name ∈ ["NOP ", "MVG ", "MVH ", "CLRERR ", "EDEC ", "ILV ", "DILB ", "BCLR ", "ENCB ", "DECB "],
      assemble (name ++ text) = none) ∧
  (assemble "NOP" = some (.command 0x00000000) ∧ assemble "MVG" = some (.command 0x01000000) ∧
    assemble "MVH" = some (.command 0x02000000) ∧ assemble "CLRERR" = some (.command 0x0F000000) ∧
    assemble "ENC" = some (.command 0x10040000) ∧ assemble "DEC" = some (.command 0x11070000) ∧
    assemble "EDEC" = some (.command 0x12000000) ∧ assemble "ILV" = some (.command 0x20000000) ∧
    assemble "DILB" = some (.command 0x23000000) ∧ assemble "BCLR" = some (.command 0x32000000) ∧
    assemble "ENCB" = some (.command 0x40000000) ∧ assemble "DECB" = some (.command 0x41000000)) ∧
  (∀ name ∈ ["ILV1", "DIL", "CHRDY", "CHLOST"], assemble name = none) ∧
  ∀ (line : String) (w : Word), assemble line = some (.command w) →
    ∃ i : Instr, i.WellFormed ∧ w = encode i ∧ decode w = .command i

/-! ## Steps and the host port -/

/-- When the next event is a write to `CMD` of a word that decodes to `i`, and no fault is pending, the step is `exec i`
on the state with that event taken off the bus and the write answered (`bus` and `reply` are the model's own fields, DESIGN
CHOICE, log entries 3 and 4). -/
def Obligations.StepRunsDecodedCommand : Prop :=
  ∀ (s : State) (agent : Nat) (w : Word) (rest : List BusEvent) (i : Instr),
    s.bus = .write agent s.cfg.base 4 w :: rest → s.status.err = 0 → decode w = .command i →
    step s = exec i { s with bus := rest, reply := .written agent }

/-- R214: the sticky-error preamble of every command word. The fault of an illegal word (R210, R212) also enters the
model's ghost record (DESIGN CHOICE, log entry 5). -/
def Obligations.StickyErrorPreamble : Prop :=
  ∀ (s : State) (w : Word),
    (s.status.err ≠ 0 → w = 0x0F000000 →
      perform w s = .next { s with status := { s.status with err := 0 }, errcmd := 0 }) ∧
    (s.status.err ≠ 0 → w ≠ 0x0F000000 → perform w s = .next s) ∧
    (s.status.err = 0 → (∃ why, decode w = .illegal why) → perform w s = .next (faulted s .illegalCommand 2 w)) ∧
    (s.status.err = 0 → ∀ i, decode w = .command i → perform w s = exec i s)

/-- An aligned 32-bit access in the window is performed at its offset: a read answers the word and changes nothing
else, a write is `MemWrite`. The event taken off `bus` and the answer in `reply` (the word read, or the end mark of a
write) are the model's own fields (DESIGN CHOICE, log entries 3 and 4). -/
def Obligations.StepPerformsHostAccess : Prop :=
  ∀ (s : State) (agent : Nat) (off : Offset) (v : Word) (rest : List BusEvent), off.toNat % 4 = 0 →
    (s.bus = .read agent (s.cfg.base + off.toNat) 4 :: rest →
      step s = .next { s with bus := rest, reply := .data agent (s.memRead off) }) ∧
    (s.bus = .write agent (s.cfg.base + off.toNat) 4 v :: rest →
      step s = ({ s with bus := rest, reply := .written agent } : State).memWrite off v)

/-- R54: an access that is not 32 bits wide, or not at a multiple of 4, is a fault of the host agent; a write to `CMD`
so made issues no command. That the run ends with a named reason, and that an access both too narrow and misaligned names
its width, is the model's (DEDUCED, log entry 10). -/
def Obligations.AccessErrorStopsTheRun : Prop :=
  ∀ (s : State) (agent size : Nat) (off : Offset) (v : Word) (rest : List BusEvent),
    (s.bus = .read agent (s.cfg.base + off.toNat) size :: rest ∨
      s.bus = .write agent (s.cfg.base + off.toNat) size v :: rest) →
    (size ≠ 4 → step s = .fault (.accessError agent (.width size) 0)) ∧
    (size = 4 → off.toNat % 4 ≠ 0 → step s = .fault (.accessError agent (.misaligned off) 0))

/-- With nothing on the bus H74CE waits and changes nothing: the model's reading of R21 and R245 (DEDUCED, log entry 11). -/
def Obligations.QuietBusChangesNothing : Prop :=
  ∀ s : State, s.bus = [] → step s = .next s

/-- The reset input gives the state after reset; the parameters, the accesses still to come and the ghost record are not
H74CE's state and stay, and the answer on the bus is idle again (the model's choices, log entries 3 to 5 and 7). -/
def Obligations.ResetInputResets : Prop :=
  ∀ (s : State) (rest : List BusEvent), s.bus = .reset :: rest →
    step s = .next { State.resetWith s.cfg with bus := rest, faultLog := s.faultLog }

/-- R42: after reset every piece of state holds 0. -/
def Obligations.ResetStateIsZero : Prop :=
  ∀ cfg : Config,
    let s := State.resetWith cfg
    s.status.word = 0 ∧ s.regD = 0 ∧ s.regC.v = 0 ∧ s.regC.e = 0 ∧ s.regS = 0 ∧ s.regP = 0 ∧ s.regQ = 0 ∧
    s.regCC = 0 ∧ s.regN = 0 ∧ s.chstat = 0 ∧ s.errcmd = 0 ∧
    (∀ k, s.mem.dibAt k = 0 ∧ (s.mem.dobAt k).word = 0 ∧ (s.mem.cwbAt k).v = 0 ∧ (s.mem.cwbAt k).e = 0) ∧
    (∀ c k, s.mem.chvAt c k = false ∧ s.mem.cheAt c k = false) ∧ s.memRead 0x002C = idWord cfg

/-- R33: the fields of `ID`. -/
def Obligations.IdReportsTheParameters : Prop :=
  (∀ s : State, s.cfg.Valid →
    ((s.memRead 0x002C).extractLsb' 0 16).toNat = s.cfg.nmax ∧ (s.memRead 0x002C).extractLsb' 16 4 = 7 ∧
    (s.memRead 0x002C).extractLsb' 20 4 = 4 ∧ (s.memRead 0x002C).extractLsb' 24 4 = 3 ∧
    (s.memRead 0x002C).extractLsb' 28 4 = 1) ∧
  State.reset.memRead 0x002C = 0x13470400

/-- What the host reads at every location of the address map (R33, R51, R52, R58, R59), as numbers. -/
def Obligations.HostReadsTheAddressMap : Prop :=
  ∀ s : State,
    s.memRead 0x0000 = 0 ∧
    (s.memRead 0x0004).toNat = s.status.err.toNat + 256 * s.status.corr.toNat + 512 * s.status.uncorr.toNat +
      1024 * s.status.noMatch.toNat ∧
    (s.memRead 0x0008).toNat = s.regD.toNat ∧
    (s.memRead 0x000C).toNat = s.regC.v.toNat + 256 * s.regC.e.toNat ∧
    (s.memRead 0x0010).toNat = s.regS.toNat ∧ (s.memRead 0x0014).toNat = s.regP.toNat ∧
    (s.memRead 0x0018).toNat = s.regQ.toNat ∧ (s.memRead 0x001C).toNat = s.regCC.toNat ∧
    (s.memRead 0x0020).toNat = s.regN.toNat ∧ (s.memRead 0x0024).toNat = s.chstat.toNat ∧
    s.memRead 0x0028 = s.errcmd ∧
    (s.cfg.Valid → (s.memRead 0x002C).toNat = s.cfg.nmax + 65536 * 7 + 1048576 * 4 + 16777216 * 3 + 268435456 * 1) ∧
    (∀ k, k < 1024 →
      (s.memRead (wordOffset 0x1000 k)).toNat = (if k < s.cfg.nmax then (s.mem.dibAt k).toNat else 0) ∧
      (s.memRead (wordOffset 0x2000 k)).toNat =
        (if k < s.cfg.nmax then (s.mem.cwbAt k).v.toNat + 256 * (s.mem.cwbAt k).e.toNat else 0) ∧
      (s.memRead (wordOffset 0x3000 k)).toNat =
        (if k < s.cfg.nmax then
          (s.mem.dobAt k).data.toNat + 256 * (s.mem.dobAt k).corr.toNat + 512 * (s.mem.dobAt k).uncorr.toNat +
            1024 * (s.mem.dobAt k).noMatch.toNat + 2048 * (s.mem.dobAt k).epath.toNat
        else 0)) ∧
    (∀ (c : Fin 7) (w j : Nat), w < 64 → j < 32 →
      (s.memRead (channelOffset 0x4000 c w)).getLsbD j =
        (decide (32 * w + j < s.cfg.nmax) && s.mem.chvAt c (32 * w + j)) ∧
      (s.memRead (channelOffset 0x5000 c w)).getLsbD j =
        (decide (32 * w + j < s.cfg.nmax) && s.mem.cheAt c (32 * w + j))) ∧
    (∀ off : Offset, off.toNat % 4 = 0 → reservedOffset off → s.memRead off = 0)

/-- What a host write of a register or a buffer entry stores (R51, R52, R58): its fields and nothing else. -/
def Obligations.HostWritesRegistersAndEntries : Prop :=
  ∀ (s : State) (v : Word),
    s.memWrite 0x0008 v = .next { s with regD := BitVec.ofNat 4 v.toNat } ∧
    s.memWrite 0x000C v =
      .next { s with regC := { v := BitVec.ofNat 7 v.toNat, e := BitVec.ofNat 7 (v.toNat / 256) } } ∧
    s.memWrite 0x0020 v = .next { s with regN := BitVec.ofNat 16 v.toNat } ∧
    ∀ k, k < 1024 →
      (∃ m : Memory, s.memWrite (wordOffset 0x1000 k) v = .next { s with mem := m } ∧
        m.cwb = s.mem.cwb ∧ m.dob = s.mem.dob ∧ m.chv = s.mem.chv ∧ m.che = s.mem.che ∧
        ∀ j, m.dibAt j = if j = k ∧ k < s.cfg.nmax then BitVec.ofNat 4 v.toNat else s.mem.dibAt j) ∧
      (∃ m : Memory, s.memWrite (wordOffset 0x2000 k) v = .next { s with mem := m } ∧
        m.dib = s.mem.dib ∧ m.dob = s.mem.dob ∧ m.chv = s.mem.chv ∧ m.che = s.mem.che ∧
        ∀ j, m.cwbAt j = if j = k ∧ k < s.cfg.nmax
          then { v := BitVec.ofNat 7 v.toNat, e := BitVec.ofNat 7 (v.toNat / 256) } else s.mem.cwbAt j)

/-- R59: a write of channel word `w` stores bit `j` at position `32·w + j`, ignores the positions at or beyond `NMAX`,
and changes nothing else. -/
def Obligations.HostWritesChannelWords : Prop :=
  ∀ (s : State) (v : Word) (c : Fin 7) (w : Nat), w < 64 →
    (∃ m : Memory, s.memWrite (channelOffset 0x4000 c w) v = .next { s with mem := m } ∧
      m.dib = s.mem.dib ∧ m.cwb = s.mem.cwb ∧ m.dob = s.mem.dob ∧ m.che = s.mem.che ∧
      ∀ (c' : Fin 7) (k : Nat), m.chvAt c' k =
        if c' = c ∧ k / 32 = w ∧ k < s.cfg.nmax then v.getLsbD (k % 32) else s.mem.chvAt c' k) ∧
    (∃ m : Memory, s.memWrite (channelOffset 0x5000 c w) v = .next { s with mem := m } ∧
      m.dib = s.mem.dib ∧ m.cwb = s.mem.cwb ∧ m.dob = s.mem.dob ∧ m.chv = s.mem.chv ∧
      ∀ (c' : Fin 7) (k : Nat), m.cheAt c' k =
        if c' = c ∧ k / 32 = w ∧ k < s.cfg.nmax then v.getLsbD (k % 32) else s.mem.cheAt c' k)

/-- A write to a read-only or reserved location is ignored (R52). -/
def Obligations.HostWritesIgnored : Prop :=
  ∀ (s : State) (v : Word),
    (∀ off ∈ [0x0004#16, 0x0010#16, 0x0014#16, 0x0018#16, 0x001C#16, 0x0024#16, 0x0028#16, 0x002C#16],
      s.memWrite off v = .next s) ∧
    (∀ k, k < 1024 → s.memWrite (wordOffset 0x3000 k) v = .next s) ∧
    (∀ off : Offset, off.toNat % 4 = 0 → reservedOffset off → s.memWrite off v = .next s)

/-- Every write but a write to `CMD` is idempotent (R60), on memories in canonical form (the model's, log
entry 9). -/
def Obligations.HostWritesIdempotent : Prop :=
  ∀ (s t : State) (off : Offset) (v : Word), s.mem.wf s.cfg.nmax → off.toNat % 4 = 0 → off ≠ 0 →
    s.memWrite off v = .next t → t.memWrite off v = .next t

/-- For a byte-addressed host the word at an aligned offset is little-endian (R55). -/
def Obligations.BytesAreLittleEndian : Prop :=
  ∀ (s : State) (off : Offset) (i : Nat), off.toNat % 4 = 0 → i < 4 →
    s.hostByte (off + BitVec.ofNat 16 i) = (s.memRead off).extractLsb' (8 * i) 8

/-! ## The GF(2) engine -/

/-- R100 and R101: the matrices, by their row and column masks. -/
def Obligations.MatricesAreTheSpecs : Prop :=
  (List.range 7).map (fun i => matrixG.row 4 i) = [0xB, 0xD, 0x1, 0xE, 0x2, 0x4, 0x8] ∧
  (List.range 4).map (fun j => matrixG.column 7 j) = [0x07, 0x19, 0x2A, 0x4B] ∧
  (List.range 3).map (fun i => matrixH.row 7 i) = [0x55, 0x66, 0x78]

/-- R102: bit `i` of the mod-2 product is the parity of row `i` masked by the vector, for every matrix. -/
def Obligations.ProductIsRowParity : Prop :=
  ∀ (M : BitMatrix) (m n : Nat) (v : BitVec n) (i : Nat), i < m →
    (M.mulVec m v).getLsbD i = xorUpTo (fun j => M.entry i j && v.getLsbD j) n ∧
    (M.mulVec m v).getLsbD i = decide (popcount (M.row n i &&& v) % 2 = 1)

/-- R103: the encode function, bit by bit and as the sum of the columns its data selects. -/
def Obligations.EncodeFunction : Prop :=
  ∀ d : DataBlock, enc d = codewordOf d ∧
    enc d = (if d.getLsbD 0 then 0x07 else 0) ^^^ (if d.getLsbD 1 then 0x19 else 0) ^^^
      (if d.getLsbD 2 then 0x2A else 0) ^^^ (if d.getLsbD 3 then 0x4B else 0)

/-- R104: the syndrome function, bit by bit, and its linearity. -/
def Obligations.SyndromeFunction : Prop :=
  (∀ c : Bits7, syn c = syndromeOf c) ∧ ∀ a b : Bits7, syn (a ^^^ b) = syn a ^^^ syn b

/-- R105: the matrices are orthogonal. -/
def Obligations.CodewordsHaveZeroSyndrome : Prop :=
  ∀ d : DataBlock, matrixH.mulVec 3 (matrixG.mulVec 7 d) = 0 ∧ syn (enc d) = 0

/-- R106: column `j` of H is `j + 1`, and each nonzero syndrome is exactly one column. -/
def Obligations.ColumnsOfHAreOneToSeven : Prop :=
  (∀ j : Fin 7, (hcol j.val).toNat = j.val + 1 ∧ syn (1#7 <<< j.val) = hcol j.val) ∧
  ∀ s : Syndrome, s ≠ 0 → ∃ j : Fin 7, hcol j.val = s ∧ ∀ i : Fin 7, hcol i.val = s → i = j

/-- `MVG` completes: the codeword of `D` into `C`, no slot erased, and nothing else (R107). -/
def Obligations.MvgWritesTheCodeword : Prop :=
  ∀ s : State, exec .mvg s = .next { s with regC := { v := codewordOf s.regD, e := 0 } }

/-- `MVH` completes: the syndrome of the slots of `C` that are not erased into `S`, and nothing else (R108). -/
def Obligations.MvhWritesTheSyndrome : Prop :=
  ∀ s : State, exec .mvh s = .next { s with regS := syndromeOf (s.regC.v &&& ~~~s.regC.e) }

/-! ## The block codec -/

/-- `ENC` completes for `LEN = 4` and faults for any other (R124). -/
def Obligations.EncEncodesOrFaults : Prop :=
  ∀ (s : State) (len : Nat),
    (len = 4 → exec (.enc len) s = .next { s with regC := { v := codewordOf s.regD, e := 0 } }) ∧
    (len ≠ 4 → exec (.enc len) s = .next (faulted s .invalidLength 1 (encode (.enc len))))

/-- `DEC` completes for `LEN = 7` with no slot erased: the syndrome, the position, the flipped word, its data and the
flags (R120 to R123, R125), nothing else; otherwise it faults, on the length first. -/
def Obligations.DecDecodesOrFaults : Prop :=
  ∀ (s : State) (len : Nat),
    (len = 7 → s.regC.e = 0 →
      exec (.dec len) s = .next { s with
        regS := syndromeOf s.regC.v
        regP := syndromeOf s.regC.v
        regCC := s.regC.v ^^^ flipMask (syndromeOf s.regC.v)
        regQ := dataOf (s.regC.v ^^^ flipMask (syndromeOf s.regC.v))
        status := { s.status with corr := syndromeOf s.regC.v != 0, uncorr := false, noMatch := false } }) ∧
    (len ≠ 7 → exec (.dec len) s = .next (faulted s .invalidLength 1 (encode (.dec len)))) ∧
    (len = 7 → s.regC.e ≠ 0 → exec (.dec len) s = .next (faulted s .erasedInput 4 (encode (.dec len))))

/-- R126: single-error decode gives the data back for at most one bit error, and says whether there was one. -/
def Obligations.SingleErrorsAreCorrected : Prop :=
  ∀ (d : DataBlock) (e : Bits7), popcount e ≤ 1 →
    (secDecode (enc d ^^^ e)).q = d ∧ ((secDecode (enc d ^^^ e)).corr = true ↔ e ≠ 0)

/-- On the machine: encode, flip at most one bit of `CV`, decode; `Q` is `D` and `CORR` says whether a bit was
flipped. -/
def Obligations.EncFlipDecRecovers : Prop :=
  ∀ (s : State) (e : Bits7), popcount e ≤ 1 →
    ∃ u t : State, exec (.enc 4) s = .next u ∧
      exec (.dec 7) { u with regC := { u.regC with v := u.regC.v ^^^ e } } = .next t ∧
      t.regQ = s.regD ∧ t.status.corr = decide (e ≠ 0) ∧ t.status.err = s.status.err ∧ t.mem = s.mem

/-! ## The erasure decoder -/

/-- `EDEC` completes on every codeword (R170 to R179): the degraded output for more than 2 erasures; otherwise the
syndrome of the known bits, and for `CC` the completion of the known bits to a codeword, if there is one, else the known
bits themselves with `NOMATCH`. Nothing else changes. -/
def Obligations.EdecCompletesTheCodeword : Prop :=
  ∀ s : State,
    (2 < popcount s.regC.e →
      exec .edec s = .next { s with
        regS := 0
        regP := 0
        regCC := 0
        regQ := 0
        status := { s.status with corr := false, uncorr := true, noMatch := false } }) ∧
    (popcount s.regC.e ≤ 2 →
      ∃ (cc : Bits7) (none : Bool),
        exec .edec s = .next { s with
          regS := syndromeOf (s.regC.v &&& ~~~s.regC.e)
          regP := 0
          regCC := cc
          regQ := dataOf cc
          status := { s.status with corr := false, uncorr := false, noMatch := none } } ∧
        (none = true ↔ ∀ c : Bits7, c &&& ~~~s.regC.e = s.regC.v &&& ~~~s.regC.e → syndromeOf c ≠ 0) ∧
        (none = false → cc &&& ~~~s.regC.e = s.regC.v &&& ~~~s.regC.e ∧ syndromeOf cc = 0) ∧
        (none = true → cc = s.regC.v &&& ~~~s.regC.e))

/-- R171: two codewords that differ only in value bits under erased slots give the same result. -/
def Obligations.ErasedValuesAreNotRead : Prop :=
  ∀ (s : State) (v : Bits7), v &&& ~~~s.regC.e = s.regC.v &&& ~~~s.regC.e →
    edec { v := v, e := s.regC.e } = edec s.regC ∧
    ∀ t : State, exec .edec s = .next t →
      exec .edec { s with regC := { s.regC with v := v } } = .next { t with regC := { t.regC with v := v } }

/-- R176: for at most 2 erasures no two candidates have the same image. -/
def Obligations.CandidatesAreUnique : Prop :=
  ∀ e : Bits7, popcount e ≤ 2 → ∀ m m' : Nat, m < 2 ^ popcount e → m' < 2 ^ popcount e →
    candidateImage e m = candidateImage e m' → m = m'

/-- R180: at most 2 erasures, with the known bits correct, are recovered. -/
def Obligations.TwoErasuresAreRecovered : Prop :=
  ∀ (d : DataBlock) (v e : Bits7), popcount e ≤ 2 → v &&& ~~~e = enc d &&& ~~~e →
    (edec { v := v, e := e }).q = d ∧ (edec { v := v, e := e }).uncorr = false ∧
    (edec { v := v, e := e }).noMatch = false ∧ (edec { v := v, e := e }).cc = enc d

/-! ## The interleaver -/

/-- `ILV` completes for `N ≤ NMAX`: the transpose of R141 at the batch's positions, all channels present, and nothing
else; it faults for `N > NMAX` (R142). -/
def Obligations.IlvTransposesOrFaults : Prop :=
  ∀ s : State,
    (s.regN.toNat ≤ s.cfg.nmax →
      ∃ m : Memory, exec .ilv s = .next { s with mem := m, chstat := 0x7F } ∧
        m.dib = s.mem.dib ∧ m.cwb = s.mem.cwb ∧ m.dob = s.mem.dob ∧
        ∀ (c : Fin 7) (k : Nat),
          m.chvAt c k = (if k < s.regN.toNat then (s.mem.cwbAt k).v.getLsbD c.val else s.mem.chvAt c k) ∧
          m.cheAt c k = (if k < s.regN.toNat then (s.mem.cwbAt k).e.getLsbD c.val else s.mem.cheAt c k)) ∧
    (s.cfg.nmax < s.regN.toNat → exec .ilv s = .next (faulted s .illegalOperand 3 0x20000000))

/-- `ILV1 k` completes for `k < N ≤ NMAX`: `C` onto position `k` of the channels and nothing else, `CHSTAT` included; it
faults otherwise (R143). -/
def Obligations.Ilv1ScattersOrFaults : Prop :=
  ∀ (s : State) (k : Nat),
    (s.regN.toNat ≤ s.cfg.nmax → k < s.regN.toNat →
      ∃ m : Memory, exec (.ilv1 k) s = .next { s with mem := m } ∧
        m.dib = s.mem.dib ∧ m.cwb = s.mem.cwb ∧ m.dob = s.mem.dob ∧
        ∀ (c : Fin 7) (j : Nat),
          m.chvAt c j = (if j = k then s.regC.v.getLsbD c.val else s.mem.chvAt c j) ∧
          m.cheAt c j = (if j = k then s.regC.e.getLsbD c.val else s.mem.cheAt c j)) ∧
    (s.cfg.nmax < s.regN.toNat ∨ s.regN.toNat ≤ k →
      exec (.ilv1 k) s = .next (faulted s .illegalOperand 3 (encode (.ilv1 k))))

/-- `DIL k` completes for `k < N ≤ NMAX` with all channels present: position `k` of the channels, erasure marks included,
into `C`, and nothing else; it faults otherwise, on the operand before the partial batch (R144, R153). -/
def Obligations.DilGathersOrFaults : Prop :=
  ∀ (s : State) (k : Nat),
    (s.regN.toNat ≤ s.cfg.nmax → k < s.regN.toNat → s.chstat = 0x7F →
      ∃ w : TriWord, exec (.dil k) s = .next { s with regC := w } ∧
        ∀ c : Fin 7, w.v.getLsbD c.val = s.mem.chvAt c k ∧ w.e.getLsbD c.val = s.mem.cheAt c k) ∧
    (s.cfg.nmax < s.regN.toNat ∨ s.regN.toNat ≤ k →
      exec (.dil k) s = .next (faulted s .illegalOperand 3 (encode (.dil k)))) ∧
    (s.regN.toNat ≤ s.cfg.nmax → k < s.regN.toNat → s.chstat ≠ 0x7F →
      exec (.dil k) s = .next (faulted s .partialBatch 5 (encode (.dil k))))

/-- `DILB` completes for `N ≤ NMAX` with all channels present: the transpose into `CWB` at the batch's entries, and
nothing else; it faults otherwise (R145, R153). -/
def Obligations.DilbTransposesOrFaults : Prop :=
  ∀ s : State,
    (s.regN.toNat ≤ s.cfg.nmax → s.chstat = 0x7F →
      ∃ m : Memory, exec .dilb s = .next { s with mem := m } ∧
        m.dib = s.mem.dib ∧ m.dob = s.mem.dob ∧ m.chv = s.mem.chv ∧ m.che = s.mem.che ∧
        (∀ k, s.regN.toNat ≤ k → m.cwbAt k = s.mem.cwbAt k) ∧
        ∀ (c : Fin 7) (k : Nat), k < s.regN.toNat →
          (m.cwbAt k).v.getLsbD c.val = s.mem.chvAt c k ∧ (m.cwbAt k).e.getLsbD c.val = s.mem.cheAt c k) ∧
    (s.cfg.nmax < s.regN.toNat → exec .dilb s = .next (faulted s .illegalOperand 3 0x23000000)) ∧
    (s.regN.toNat ≤ s.cfg.nmax → s.chstat ≠ 0x7F → exec .dilb s = .next (faulted s .partialBatch 5 0x23000000))

/-- R146: `ILV` then `DILB`, with the same `N` and the channels left alone in between, leaves `CWB` as it was; and
`DILB` then `ILV`, with `CWB` left alone in between, leaves the channels' positions of the batch as they were. -/
def Obligations.InterleavingRoundTrips : Prop :=
  (∀ s u v : State, exec .ilv s = .next u → u.faultLog = s.faultLog → v.cfg = u.cfg → v.regN = u.regN →
      v.chstat = u.chstat → v.mem.chv = u.mem.chv → v.mem.che = u.mem.che →
      ∃ t : State, exec .dilb v = .next t ∧ ∀ k, k < s.regN.toNat → t.mem.cwbAt k = s.mem.cwbAt k) ∧
  (∀ s u v : State, exec .dilb s = .next u → u.faultLog = s.faultLog → v.cfg = u.cfg → v.regN = u.regN →
      v.mem.cwb = u.mem.cwb →
      ∃ t : State, exec .ilv v = .next t ∧ ∀ (c : Fin 7) (k : Nat), k < s.regN.toNat →
        t.mem.chvAt c k = s.mem.chvAt c k ∧ t.mem.cheAt c k = s.mem.cheAt c k)

/-- R147: when channel `c` is lost and no other channel has an erased slot, every codeword `DIL` or `DILB` reconstructs
has the erasure set `{c}`. -/
def Obligations.LostChannelErasesOneSlot : Prop :=
  ∀ (s : State) (c : Fin 7), s.regN.toNat ≤ s.cfg.nmax → s.chstat = 0x7F →
    (∀ (d : Fin 7) (k : Nat), k < s.regN.toNat → s.mem.cheAt d k = decide (d = c)) →
    (∀ k, k < s.regN.toNat → ∃ t : State, exec (.dil k) s = .next t ∧ t.regC.e = 1#7 <<< c.val) ∧
    ∃ t : State, exec .dilb s = .next t ∧ ∀ k, k < s.regN.toNat → (t.mem.cwbAt k).e = 1#7 <<< c.val

/-- `ILV1 k` for every `k < N`, after loading `C` from `CWB[k]`, has the effect of `ILV` on the channels (R143). -/
def Obligations.ScatterEachEqualsIlv : Prop :=
  ∀ s : State, s.regN.toNat ≤ s.cfg.nmax →
    ∃ t u : State, scatterEach s.regN.toNat s = .next t ∧ exec .ilv s = .next u ∧ t.chstat = s.chstat ∧
      ∀ (c : Fin 7) (k : Nat), t.mem.chvAt c k = u.mem.chvAt c k ∧ t.mem.cheAt c k = u.mem.cheAt c k

/-! ## Channel accumulation -/

/-- `CHRDY c` completes for `c < 7`: that bit of `CHSTAT` is set and nothing else changes, whatever `N` is; it faults for
`c ≥ 7` (R150). -/
def Obligations.ChrdyMarksOrFaults : Prop :=
  ∀ (s : State) (c : Nat),
    (c < 7 → ∃ v : Bits7, exec (.chrdy c) s = .next { s with chstat := v } ∧
      ∀ d, d < 7 → v.getLsbD d = (decide (d = c) || s.chstat.getLsbD d)) ∧
    (7 ≤ c → exec (.chrdy c) s = .next (faulted s .illegalOperand 3 (encode (.chrdy c))))

/-- `CHLOST c` completes for `N ≤ NMAX` and `c < 7`: every position of the batch is erased in channel `c`, which is
present, and nothing else changes; it faults otherwise (R151). -/
def Obligations.ChlostErasesOrFaults : Prop :=
  ∀ (s : State) (c : Nat),
    (s.regN.toNat ≤ s.cfg.nmax → c < 7 →
      ∃ (v : Bits7) (m : Memory), exec (.chlost c) s = .next { s with chstat := v, mem := m } ∧
        (∀ d, d < 7 → v.getLsbD d = (decide (d = c) || s.chstat.getLsbD d)) ∧
        m.dib = s.mem.dib ∧ m.cwb = s.mem.cwb ∧ m.dob = s.mem.dob ∧ m.chv = s.mem.chv ∧
        ∀ (d : Fin 7) (k : Nat), m.cheAt d k = (decide (d.val = c ∧ k < s.regN.toNat) || s.mem.cheAt d k)) ∧
    (s.cfg.nmax < s.regN.toNat ∨ 7 ≤ c →
      exec (.chlost c) s = .next (faulted s .illegalOperand 3 (encode (.chlost c))))

/-- `BCLR` completes in every state: no channel is present, no position below `NMAX` is erased, and nothing else changes,
whatever `N` is (R152). -/
def Obligations.BclrEndsTheBatch : Prop :=
  ∀ s : State, ∃ m : Memory, exec .bclr s = .next { s with chstat := 0, mem := m } ∧
    m.dib = s.mem.dib ∧ m.cwb = s.mem.cwb ∧ m.dob = s.mem.dob ∧ m.chv = s.mem.chv ∧
    ∀ (c : Fin 7) (k : Nat), m.cheAt c k = (decide (s.cfg.nmax ≤ k) && s.mem.cheAt c k)

/-! ## Batch codec and control -/

/-- `ENCB` completes for `N ≤ NMAX`: each entry of the batch is the codeword of its data, no slot erased, and nothing
else changes; it faults for `N > NMAX` (R191). -/
def Obligations.EncbEncodesOrFaults : Prop :=
  ∀ s : State,
    (s.regN.toNat ≤ s.cfg.nmax →
      ∃ m : Memory, exec .encb s = .next { s with mem := m } ∧
        m.dib = s.mem.dib ∧ m.dob = s.mem.dob ∧ m.chv = s.mem.chv ∧ m.che = s.mem.che ∧
        ∀ k, m.cwbAt k =
          if k < s.regN.toNat then { v := codewordOf (s.mem.dibAt k), e := 0 } else s.mem.cwbAt k) ∧
    (s.cfg.nmax < s.regN.toNat → exec .encb s = .next (faulted s .illegalOperand 3 0x40000000))

/-- `DECB` completes for `N ≤ NMAX`: each entry is decoded by the decoder its own mask selects (R190), each flag of
`STATUS` is the OR over the batch, and nothing else changes; it faults for `N > NMAX` (R192). -/
def Obligations.DecbDecodesOrFaults : Prop :=
  ∀ s : State,
    (s.regN.toNat ≤ s.cfg.nmax →
      ∃ (m : Memory) (corr uncorr none : Bool),
        exec .decb s = .next { s with
          mem := m
          status := { s.status with corr := corr, uncorr := uncorr, noMatch := none } } ∧
        m.dib = s.mem.dib ∧ m.cwb = s.mem.cwb ∧ m.chv = s.mem.chv ∧ m.che = s.mem.che ∧
        (∀ k, s.regN.toNat ≤ k → m.dobAt k = s.mem.dobAt k) ∧
        (∀ k, k < s.regN.toNat → (s.mem.cwbAt k).e = 0 →
          m.dobAt k = {
            data := dataOf ((s.mem.cwbAt k).v ^^^ flipMask (syndromeOf (s.mem.cwbAt k).v))
            corr := syndromeOf (s.mem.cwbAt k).v != 0
            uncorr := false
            noMatch := false
            epath := false }) ∧
        (∀ k, k < s.regN.toNat → (s.mem.cwbAt k).e ≠ 0 →
          m.dobAt k = {
            data := (edec (s.mem.cwbAt k)).q
            corr := false
            uncorr := (edec (s.mem.cwbAt k)).uncorr
            noMatch := (edec (s.mem.cwbAt k)).noMatch
            epath := true }) ∧
        (corr = true ↔ ∃ k, k < s.regN.toNat ∧ (m.dobAt k).corr = true) ∧
        (uncorr = true ↔ ∃ k, k < s.regN.toNat ∧ (m.dobAt k).uncorr = true) ∧
        (none = true ↔ ∃ k, k < s.regN.toNat ∧ (m.dobAt k).noMatch = true)) ∧
    (s.cfg.nmax < s.regN.toNat → exec .decb s = .next (faulted s .illegalOperand 3 0x41000000))

/-- `NOP` completes in every state and changes nothing (R193). -/
def Obligations.NopChangesNothing : Prop :=
  ∀ s : State, exec .nop s = .next s

/-- `CLRERR` completes in every state: `ERR` and `ERRCMD` are 0 and nothing else changes (R194, R220). -/
def Obligations.ClrerrAcknowledges : Prop :=
  ∀ s : State, exec .clrerr s = .next { s with status := { s.status with err := 0 }, errcmd := 0 }

/-! ## Whole-machine rules -/

/-- R215 with R212 and R213: a command that meets a fault condition reports the first in the order of R215, and changes
nothing but `STATUS.ERR` and `ERRCMD` (and the ghost record); one that meets none completes without a fault. -/
def Obligations.FaultPriorityAndPrecision : Prop :=
  ∀ (i : Instr) (s : State),
    (∀ e, i.firstFault s = some e → exec i s = .next (faulted s e e.code (encode i))) ∧
    (i.firstFault s = none → ∃ t : State, exec i s = .next t ∧ t.faultLog = s.faultLog ∧
      (i ≠ .clrerr → t.status.err = s.status.err ∧ t.errcmd = s.errcmd))

/-- What a command may write: each register and buffer has the writers its rule names (R23 to R38,
R40), and the host's operands `D`, `N` and `DIB` have none. `ERR` and `ERRCMD` change only by a fault (R212) and by
`CLRERR` (R194). -/
def Obligations.CommandsWriteOnlyTheirState : Prop :=
  ∀ (i : Instr) (s t : State), exec i s = .next t →
    t.cfg = s.cfg ∧ t.bus = s.bus ∧ t.reply = s.reply ∧ t.regD = s.regD ∧ t.regN = s.regN ∧ t.mem.dib = s.mem.dib ∧
    ((∀ len k, i ≠ .mvg ∧ i ≠ .enc len ∧ i ≠ .dil k) → t.regC = s.regC) ∧
    ((∀ len, i ≠ .mvh ∧ i ≠ .dec len ∧ i ≠ .edec) → t.regS = s.regS) ∧
    ((∀ len, i ≠ .dec len ∧ i ≠ .edec) → t.regP = s.regP ∧ t.regQ = s.regQ ∧ t.regCC = s.regCC) ∧
    ((∀ c, i ≠ .ilv ∧ i ≠ .chrdy c ∧ i ≠ .chlost c ∧ i ≠ .bclr) → t.chstat = s.chstat) ∧
    (i ≠ .encb ∧ i ≠ .dilb → t.mem.cwb = s.mem.cwb) ∧
    (i ≠ .decb → t.mem.dob = s.mem.dob) ∧
    ((∀ k, i ≠ .ilv ∧ i ≠ .ilv1 k) → t.mem.chv = s.mem.chv) ∧
    ((∀ k, i ≠ .ilv ∧ i ≠ .ilv1 k ∧ i ≠ .chlost k ∧ i ≠ .bclr) → t.mem.che = s.mem.che) ∧
    (i.firstFault s = none → i ≠ .clrerr → t.status.err = s.status.err ∧ t.errcmd = s.errcmd) ∧
    (i.writesDecodeFlags = false →
      t.status.corr = s.status.corr ∧ t.status.uncorr = s.status.uncorr ∧ t.status.noMatch = s.status.noMatch)

/-- A pending fault goes away in a step only by a write of `CLRERR` to `CMD` or by reset, and while it is pending `ERR`
and `ERRCMD` keep naming it (R31, R214, R221) and the ghost record (log entry 5) gets no fault. -/
def Obligations.OnlyClrerrOrResetClearsErr : Prop :=
  ∀ s t : State, s.status.err ≠ 0 → step s = .next t →
    (t.status.err = s.status.err ∧ t.errcmd = s.errcmd ∧ t.faultLog = s.faultLog) ∨
    (t.status.err = 0 ∧ t.errcmd = 0 ∧
      ∃ rest, s.bus = .reset :: rest ∨ ∃ agent, s.bus = .write agent s.cfg.base 4 0x0F000000 :: rest)

/-- Every host agent may make every access: who makes it changes nothing but the agent the answer goes to (R222).
The answer, `reply`, is the model's own field (DESIGN CHOICE, log entry 4). -/
def Obligations.AgentsAreAlike : Prop :=
  ∀ (s t : State) (a b addr size : Nat) (v : Word) (rest : List BusEvent),
    (s.bus = .read a addr size :: rest → step s = .next t →
      ∃ value, t.reply = .data a value ∧
        step { s with bus := .read b addr size :: rest } = .next { t with reply := .data b value }) ∧
    (s.bus = .write a addr size v :: rest → step s = .next t →
      t.reply = .written a ∧
        step { s with bus := .write b addr size v :: rest } = .next { t with reply := .written b })

/-- The invariant holds at reset, for every capacity the address map admits. -/
def Obligations.ResetSatisfiesInv : Prop :=
  State.reset.Inv ∧ ∀ cfg : Config, cfg.Valid → (State.resetWith cfg).Inv

/-- Every step keeps the invariant: the buffers stay canonical and within `NMAX`, `ERR` stays in 0 to 5, `ERRCMD` is 0
without a fault and names the last fault with one, `Q` is the data of `CC`, and the `DOB` entries stay legal. The canonical
form and the record of faults are the model's (DESIGN CHOICE, log entries 9 and 5). -/
def Obligations.StepKeepsInv : Prop :=
  ∀ s t : State, s.Inv → step s = .next t → t.Inv

/-- The parameters never change (R7). -/
def Obligations.StepKeepsTheParameters : Prop :=
  ∀ s t : State, step s = .next t → t.cfg = s.cfg

/-- One bit error in each block of a batch is corrected by `DECB` (R126, R192). -/
def Obligations.BatchCorrectsSingleErrors : Prop :=
  ∀ (s : State) (e : Nat → Bits7), s.regN.toNat ≤ s.cfg.nmax → (∀ k, popcount (e k) ≤ 1) →
    (∀ k, k < s.regN.toNat → s.mem.cwbAt k = { v := enc (s.mem.dibAt k) ^^^ e k, e := 0 }) →
    ∃ t : State, exec .decb s = .next t ∧ t.status.err = s.status.err ∧
      (∀ k, k < s.regN.toNat →
        (t.mem.dobAt k).data = s.mem.dibAt k ∧ ((t.mem.dobAt k).corr = true ↔ e k ≠ 0) ∧
        (t.mem.dobAt k).uncorr = false ∧ (t.mem.dobAt k).noMatch = false) ∧
      t.status.uncorr = false ∧ t.status.noMatch = false ∧
      (t.status.corr = true ↔ ∃ k, k < s.regN.toNat ∧ e k ≠ 0)

/-- The whole flow of R243 and R244 on the machine, six host writes to `CMD`: a batch is encoded, interleaved, loses any
two channels (the same one twice included), is de-interleaved and decoded, and every block comes back. -/
def Obligations.TwoLostChannelsAreRecovered : Prop :=
  ∀ (s : State) (a b : Nat), a < 7 → b < 7 → s.regN.toNat ≤ s.cfg.nmax → s.status.err = 0 →
    s.bus = [.encb, .ilv, .chlost a, .chlost b, .dilb, .decb].map (fun i => issueEvent s.cfg 0 (encode i)) →
    ∃ t : State, Host.Core.run Sys2Proof.core 6 s = .next t ∧ t.bus = [] ∧ t.status.err = 0 ∧
      t.status.uncorr = false ∧ t.status.noMatch = false ∧ t.mem.dib = s.mem.dib ∧
      ∀ k, k < s.regN.toNat →
        (t.mem.dobAt k).data = s.mem.dibAt k ∧ (t.mem.dobAt k).uncorr = false ∧ (t.mem.dobAt k).noMatch = false ∧
        (t.mem.dobAt k).epath = true
end

