-- ==== Sys2Proof/Laws/Assembler.lean ====
section
/-! SUPPORT. What the assembler reads: the words of a line, the value of a number's text, and the line of a mnemonic with
one operand (R79). -/

namespace Sys2Proof.Machine

/-! ## The words of a line -/

/-- A text without separators ends the word being read. -/
theorem wordsFrom_word {w : List Char} (h : ∀ ch ∈ w, isSeparator ch = false) (cur : List Char) :
    wordsFrom cur w = flushWord (cur ++ w) [] := by
  induction w generalizing cur with
  | nil => simp [wordsFrom]
  | cons ch rest ih =>
    rw [wordsFrom, if_neg (by simp [h ch]), ih (fun c hc => h c (.tail _ hc))]
    simp

/-- A separator ends the word being read. -/
theorem wordsFrom_separator {w : List Char} (h : ∀ ch ∈ w, isSeparator ch = false) (cur rest : List Char) {sep : Char}
    (hs : isSeparator sep = true) : wordsFrom cur (w ++ sep :: rest) = flushWord (cur ++ w) (wordsFrom [] rest) := by
  induction w generalizing cur with
  | nil => simp [wordsFrom, hs]
  | cons ch tail ih =>
    rw [List.cons_append, wordsFrom, if_neg (by simp [h ch]), ih (fun c hc => h c (.tail _ hc))]
    simp

theorem flushWord_of_ne {w : List Char} (h : w ≠ []) (words : List (List Char)) : flushWord w words = w :: words := by
  cases w with
  | nil => exact absurd rfl h
  | cons ch rest => rfl

/-- A mnemonic, a space and an operand are two words. -/
theorem wordsFrom_pair {m t : List Char} (hm : ∀ ch ∈ m, isSeparator ch = false) (ht : ∀ ch ∈ t, isSeparator ch = false)
    (hm0 : m ≠ []) (ht0 : t ≠ []) : wordsFrom [] (m ++ ' ' :: t) = [m, t] := by
  rw [wordsFrom_separator hm [] t (by decide), wordsFrom_word ht, List.nil_append, List.nil_append,
    flushWord_of_ne hm0, flushWord_of_ne ht0]

/-! ## Numbers -/

theorem digitValue_digitChar_ten : ∀ d, d < 10 → digitValue 10 d.digitChar = some d := by decide
theorem digitValue_digitChar_sixteen : ∀ d, d < 16 → digitValue 16 d.digitChar = some d := by decide
theorem digitValue_toUpper_sixteen : ∀ d, d < 16 → digitValue 16 d.digitChar.toUpper = some d := by decide

/-- Zeros before the digits do not count. -/
theorem digitsFrom_replicate_zero (base : Nat) (h : 0 < base) (z : Nat) (rest : List Char) :
    digitsFrom base 0 (List.replicate z '0' ++ rest) = digitsFrom base 0 rest := by
  have hz : digitValue base '0' = some 0 := by simp [digitValue, h]
  induction z with
  | zero => rfl
  | succ z ih => rw [List.replicate_succ, List.cons_append, digitsFrom, hz]; simpa using ih

/-- The digits `Nat.toDigits` writes are read back, each through `f` (the identity, or upper case). -/
theorem digitsFrom_toDigits {base : Nat} (hb : 1 < base) (f : Char → Char)
    (hf : ∀ d, d < base → digitValue base (f d.digitChar) = some d) (n : Nat) (rest : List Char) :
    digitsFrom base 0 ((Nat.toDigits base n).map f ++ rest) = digitsFrom base n rest := by
  induction n using Nat.strongRecOn generalizing rest with
  | ind n ih =>
    by_cases h : n < base
    · rw [Nat.toDigits_of_lt_base h]
      simp [digitsFrom, hf n h]
    · have hn : base ≤ n := Nat.le_of_not_lt h
      rw [Nat.toDigits_of_base_le hb hn, List.map_append, List.append_assoc,
        ih (n / base) (Nat.div_lt_self (by omega) hb)]
      simp [digitsFrom, hf _ (Nat.mod_lt n (by omega)), Nat.div_add_mod]

/-- A text that is read in base 10: it does not begin with `0x`. -/
theorem numeral_decimal {t : List Char} (h0 : t ≠ []) (hx : ∀ ch ∈ t, ch ≠ 'x') : numeral t = digitsFrom 10 0 t := by
  unfold numeral
  split
  · exact absurd rfl h0
  · exact absurd rfl (hx 'x' (by simp))
  · exact absurd rfl (hx 'x' (by simp))
  · rfl

/-- A text that is read in base 16. -/
theorem numeral_hex {t : List Char} (h0 : t ≠ []) : numeral ('0' :: 'x' :: t) = digitsFrom 16 0 t := by
  cases t with
  | nil => exact absurd rfl h0
  | cons ch rest => rfl

/-- Every digit of a base up to 16 is the character of a number below the base. -/
theorem mem_toDigits {base : Nat} (hb : 1 < base) (n : Nat) : ∀ ch ∈ Nat.toDigits base n, ∃ d, d < base ∧ ch = d.digitChar := by
  induction n using Nat.strongRecOn with
  | ind n ih =>
    intro ch hch
    by_cases h : n < base
    · rw [Nat.toDigits_of_lt_base h, List.mem_singleton] at hch
      exact ⟨n, h, hch⟩
    · rw [Nat.toDigits_of_base_le hb (Nat.le_of_not_lt h), List.mem_append, List.mem_singleton] at hch
      rcases hch with hch | rfl
      · exact ih _ (Nat.div_lt_self (by omega) hb) ch hch
      · exact ⟨_, Nat.mod_lt n (by omega), rfl⟩

/-! ## A line with one operand -/

/-- What the assembler answers to a mnemonic and one operand. -/
theorem assemble_operand {line : String} {m t : List Char} (hl : line.toList = m ++ ' ' :: t)
    (hm : ∀ ch ∈ m, isSeparator ch = false) (ht : ∀ ch ∈ t, isSeparator ch = false) (hm0 : m ≠ []) (ht0 : t ≠ []) :
    assemble line = (numeral t).bind fun n => (assembleCommand m (some n)).map .command := by
  rw [assemble, hl, wordsFrom_pair hm ht hm0 ht0]
  split <;> simp_all

end Sys2Proof.Machine
end

