-- ==== Sys2Proof/Laws/Data.lean ====
section
/-! SUPPORT. The laws of the shared operations over data: loops, bit vectors built bit by bit, and buffers (a read after
a write, and the canonical form). -/

namespace Sys2Proof.Machine

@[simp] theorem bitVec_default (w : Nat) : (default : BitVec w) = 0#w := rfl
@[simp] theorem bool_default : (default : Bool) = false := rfl
@[simp] theorem triWord_default_v : (default : TriWord).v = 0 := rfl
@[simp] theorem triWord_default_e : (default : TriWord).e = 0 := rfl

/-! ## Bits -/

theorem getLsbD_ofBits (n : Nat) (f : Fin n → Bool) (i : Nat) :
    (ofBits n f).getLsbD i = if h : i < n then f ⟨i, h⟩ else false := by
  induction n with
  | zero => simp [ofBits]
  | succ n ih =>
    simp only [ofBits, BitVec.getLsbD_cons, ih]
    by_cases h : i = n
    · subst h; simp [Fin.last]
    · by_cases h' : i < n
      · simp [h, h', Nat.lt_succ_of_lt h']
      · have : ¬ i < n + 1 := by omega
        simp [h, h', this]

@[simp] theorem getElem_ofBits {n : Nat} (f : Fin n → Bool) (i : Nat) (h : i < n) : (ofBits n f)[i] = f ⟨i, h⟩ := by
  rw [← BitVec.getLsbD_eq_getElem, getLsbD_ofBits, dif_pos h]

/-- A vector built from the bits of `v` is `v`. -/
@[simp] theorem ofBits_getLsbD {n : Nat} (v : BitVec n) : ofBits n (fun i => v.getLsbD i) = v := by
  apply BitVec.eq_of_getElem_eq
  intro i hi
  rw [getElem_ofBits, BitVec.getLsbD_eq_getElem]

theorem ofBits_congr {n : Nat} {f g : Fin n → Bool} (h : ∀ i, f i = g i) : ofBits n f = ofBits n g :=
  congrArg (ofBits n) (funext h)

/-! ## Loops -/

@[simp] theorem forUpTo_zero {σ : Type} (f : Nat → σ → σ) (x : σ) : forUpTo f 0 x = x := rfl
@[simp] theorem forUpTo_succ {σ : Type} (f : Nat → σ → σ) (n : Nat) (x : σ) :
    forUpTo f (n + 1) x = f n (forUpTo f n x) := rfl

/-- What holds before the loop, and is carried by each pass, holds after it. -/
theorem forUpTo_induct {σ : Type} {f : Nat → σ → σ} {x : σ} (P : Nat → σ → Prop) (n : Nat) (start : P 0 x)
    (pass : ∀ k y, k < n → P k y → P (k + 1) (f k y)) : P n (forUpTo f n x) := by
  induction n with
  | zero => exact start
  | succ n ih => exact pass n _ (Nat.lt_succ_self n) (ih fun k y hk => pass k y (Nat.lt_succ_of_lt hk))

/-- What no pass changes, the loop does not change. -/
theorem forUpTo_frame {σ β : Type} {f : Nat → σ → σ} (g : σ → β) (h : ∀ k y, g (f k y) = g y) (n : Nat) (x : σ) :
    g (forUpTo f n x) = g x := by
  induction n with
  | zero => rfl
  | succ n ih => rw [forUpTo_succ, h, ih]

theorem anyUpTo_eq_true (f : Nat → Bool) (n : Nat) : anyUpTo f n = true ↔ ∃ k, k < n ∧ f k = true := by
  induction n with
  | zero => simp [anyUpTo]
  | succ n ih =>
    simp only [anyUpTo, Bool.or_eq_true, ih]
    constructor
    · rintro (⟨k, hk, h⟩ | h)
      · exact ⟨k, Nat.lt_succ_of_lt hk, h⟩
      · exact ⟨n, Nat.lt_succ_self n, h⟩
    · rintro ⟨k, hk, h⟩
      by_cases hn : k = n
      · exact .inr (hn ▸ h)
      · exact .inl ⟨k, by omega, h⟩

/-! ## Buffers -/

theorem store_erase_ne {α : Type} (b : Store α) (k : Nat) : ∀ x ∈ Store.erase b k, x.1 ≠ k := by
  simp [Store.erase]

theorem mem_store_insert {α : Type} (b : Store α) (k : Nat) (v : α) (x : Nat × α) :
    x ∈ Store.insert b k v ↔ x = (k, v) ∨ x ∈ b := by
  induction b with
  | nil => simp [Store.insert]
  | cons y rest ih =>
    obtain ⟨i, u⟩ := y
    unfold Store.insert
    split
    · simp
    · simp only [List.mem_cons, ih]
      exact or_left_comm

section Buffer

variable {α : Type} [Inhabited α]

@[simp] theorem store_get_nil (k : Nat) : Store.get ([] : Store α) k = default := rfl

theorem store_get_erase (b : Store α) (k j : Nat) :
    Store.get (Store.erase b k) j = if j = k then default else Store.get b j := by
  induction b with
  | nil => simp [Store.erase, Store.get]
  | cons x rest ih =>
    obtain ⟨i, v⟩ := x
    simp only [Store.erase] at ih
    by_cases h : i = k
    · subst h
      by_cases hj : j = i <;> simp_all [Store.erase, Store.get, eq_comm]
    · by_cases hj : j = k
      · subst hj; simp_all [Store.erase, Store.get]
      · simp_all [Store.erase, Store.get]

theorem store_get_insert (b : Store α) (k j : Nat) (v : α) (hk : ∀ x ∈ b, x.1 ≠ k) :
    Store.get (Store.insert b k v) j = if j = k then v else Store.get b j := by
  induction b with
  | nil => simp [Store.insert, Store.get, eq_comm]
  | cons x rest ih =>
    obtain ⟨i, u⟩ := x
    have hi : i ≠ k := hk (i, u) (by simp)
    have ih := ih fun x hx => hk x (by simp [hx])
    unfold Store.insert
    by_cases hj : j = k
    · subst hj; split <;> simp [Store.get, ih, hi]
    · split <;> simp [Store.get, ih, hj, Ne.symm hj]

/-- A read after a write: the entry written reads as written, every other entry as before. -/
theorem store_get_set [DecidableEq α] (b : Store α) (k j : Nat) (v : α) :
    Store.get (Store.set b k v) j = if j = k then v else Store.get b j := by
  unfold Store.set
  split
  · rename_i h; rw [store_get_erase, h]
  · rw [store_get_insert _ _ _ _ (store_erase_ne b k), store_get_erase]
    split <;> rfl

@[simp] theorem store_get_set_same [DecidableEq α] (b : Store α) (k : Nat) (v : α) :
    Store.get (Store.set b k v) k = v := by simp [store_get_set]

theorem store_get_set_other [DecidableEq α] (b : Store α) {k j : Nat} (v : α) (h : j ≠ k) :
    Store.get (Store.set b k v) j = Store.get b j := by simp [store_get_set, h]

theorem store_get_clearBelow (b : Store α) (n j : Nat) :
    Store.get (Store.clearBelow b n) j = if j < n then default else Store.get b j := by
  induction b with
  | nil => simp [Store.clearBelow, Store.get]
  | cons x rest ih =>
    obtain ⟨i, v⟩ := x
    simp only [Store.clearBelow] at ih
    by_cases h : n ≤ i
    · by_cases hj : i = j
      · subst hj; simp [Store.clearBelow, Store.get, h, Nat.not_lt.mpr h]
      · simp [Store.clearBelow, Store.get, h, hj, ih]
    · by_cases hj : i = j
      · subst hj; simp [Store.clearBelow, h, ih, Nat.not_le.mp h]
      · simp [Store.clearBelow, Store.get, h, hj, ih]

/-! The canonical form. -/

@[simp] theorem store_wf_nil [DecidableEq α] (n : Nat) : Store.wf n ([] : Store α) := by simp [Store.wf]

/-- Leaving out entries keeps the canonical form. -/
theorem store_wf_filter [DecidableEq α] {n : Nat} {b : Store α} (p : Nat × α → Bool) (h : Store.wf n b) :
    Store.wf n (b.filter p) :=
  ⟨h.1.filter p, fun x hx => h.2 x (List.mem_filter.mp hx).1⟩

theorem store_wf_clearBelow [DecidableEq α] {n : Nat} {b : Store α} (k : Nat) (h : Store.wf n b) : Store.wf n (Store.clearBelow b k) :=
  store_wf_filter _ h

theorem store_wf_insert [DecidableEq α] {n : Nat} {b : Store α} {k : Nat} {v : α} (h : Store.wf n b) (hk : ∀ x ∈ b, x.1 ≠ k)
    (hn : k < n) (hv : v ≠ default) : Store.wf n (Store.insert b k v) := by
  refine ⟨?_, fun x hx => ?_⟩
  · have hs := h.1
    clear h
    induction b with
    | nil => simp [Store.insert]
    | cons y rest ih =>
      obtain ⟨i, u⟩ := y
      rw [List.pairwise_cons] at hs
      have hi : i ≠ k := hk (i, u) (by simp)
      unfold Store.insert
      split
      · rename_i hlt
        refine List.pairwise_cons.mpr ⟨fun z hz => ?_, List.pairwise_cons.mpr hs⟩
        rcases List.mem_cons.mp hz with rfl | hz
        · exact hlt
        · exact Nat.lt_trans hlt (hs.1 z hz)
      · refine List.pairwise_cons.mpr ⟨fun z hz => ?_, ih (fun x hx => hk x (by simp [hx])) hs.2⟩
        rcases (mem_store_insert rest k v z).mp hz with rfl | hz
        · simp only; omega
        · exact hs.1 z hz
  · rcases (mem_store_insert b k v x).mp hx with rfl | hx
    · exact ⟨hn, hv⟩
    · exact h.2 x hx

/-- A write within the capacity keeps the canonical form. -/
theorem store_wf_set [DecidableEq α] {n : Nat} {b : Store α} {k : Nat} (v : α) (h : Store.wf n b) (hn : k < n) :
    Store.wf n (Store.set b k v) := by
  unfold Store.set
  split
  · exact store_wf_filter _ h
  · exact store_wf_insert (store_wf_filter _ h) (store_erase_ne b k) hn ‹_›

/-- An entry at or beyond the capacity of a canonical buffer reads as the zero entry. -/
theorem store_get_of_wf [DecidableEq α] {n : Nat} {b : Store α} (h : Store.wf n b) {k : Nat} (hk : n ≤ k) :
    Store.get b k = default := by
  induction b with
  | nil => rfl
  | cons y rest ih =>
    obtain ⟨i, u⟩ := y
    have hi : i < n := (h.2 (i, u) (by simp)).1
    simp only [Store.get, show ¬ i = k by omega, if_false]
    exact ih ⟨(List.pairwise_cons.mp h.1).2, fun x hx => h.2 x (by simp [hx])⟩

theorem store_get_of_head_lt {b : Store α} {k : Nat} (h : ∀ x ∈ b, k < x.1) : Store.get b k = default := by
  induction b with
  | nil => rfl
  | cons y rest ih =>
    obtain ⟨i, u⟩ := y
    have hi : k < i := h (i, u) (by simp)
    simp only [Store.get, show ¬ i = k by omega, if_false]
    exact ih fun x hx => h x (by simp [hx])

/-- Two canonical buffers that read alike are equal data. -/
theorem store_ext [DecidableEq α] {n : Nat} {a b : Store α} (ha : Store.wf n a) (hb : Store.wf n b)
    (h : ∀ k, Store.get a k = Store.get b k) : a = b := by
  induction a generalizing b with
  | nil =>
    cases b with
    | nil => rfl
    | cons y rest =>
      obtain ⟨i, u⟩ := y
      have hu := (hb.2 (i, u) (by simp)).2
      have := h i
      simp only [Store.get, if_true] at this
      exact absurd this.symm hu
  | cons x rest ih =>
    obtain ⟨i, u⟩ := x
    have hu := (ha.2 (i, u) (by simp)).2
    have ha' := List.pairwise_cons.mp ha.1
    cases b with
    | nil =>
      have := h i
      simp only [Store.get, if_true] at this
      exact absurd this hu
    | cons y rest' =>
      obtain ⟨j, w⟩ := y
      have hw := (hb.2 (j, w) (by simp)).2
      have hb' := List.pairwise_cons.mp hb.1
      have hij : i = j := by
        rcases Nat.lt_trichotomy i j with hlt | he | hlt
        · have := h i
          rw [Store.get, if_pos rfl, store_get_of_head_lt] at this
          · exact absurd this hu
          · intro z hz
            rcases List.mem_cons.mp hz with rfl | hz
            · exact hlt
            · exact Nat.lt_trans hlt (hb'.1 z hz)
        · exact he
        · have := (h j).symm
          rw [Store.get, if_pos rfl, store_get_of_head_lt] at this
          · exact absurd this hw
          · intro z hz
            rcases List.mem_cons.mp hz with rfl | hz
            · exact hlt
            · exact Nat.lt_trans hlt (ha'.1 z hz)
      subst hij
      have huw : u = w := by simpa [Store.get] using h i
      subst huw
      have hrest : rest = rest' := by
        refine ih ⟨ha'.2, fun x hx => ha.2 x (by simp [hx])⟩ ⟨hb'.2, fun x hx => hb.2 x (by simp [hx])⟩ fun k => ?_
        by_cases hk : i = k
        · subst hk
          rw [store_get_of_head_lt ha'.1, store_get_of_head_lt hb'.1]
        · simpa [Store.get, hk] using h k
      rw [hrest]

end Buffer

end Sys2Proof.Machine
end

