-- ==== Sys2Proof/Laws/Encoding.lean ====
section
/-! SUPPORT. The laws of the command word: its three fields (R70 to R73), and each kind of row of R75 in terms of them. -/

namespace Sys2Proof

/-- The bits of a command word, field by field (R70). -/
theorem getLsbD_commandWord (opc len : BitVec 8) (arg : BitVec 16) (i : Nat) :
    (commandWord opc len arg).getLsbD i =
      if i < 16 then arg.getLsbD i else if i - 16 < 8 then len.getLsbD (i - 16) else opc.getLsbD (i - 16 - 8) := by
  show ((opc ++ len) ++ arg : BitVec (8 + 8 + 16)).getLsbD i = _
  rw [BitVec.getLsbD_append, BitVec.getLsbD_append]

@[simp] theorem opcField_commandWord (opc len : BitVec 8) (arg : BitVec 16) :
    opcField (commandWord opc len arg) = opc := by
  apply BitVec.eq_of_getLsbD_eq
  intro i hi
  rw [opcField, BitVec.getLsbD_extractLsb', getLsbD_commandWord, if_neg (by omega), if_neg (by omega),
    show 24 + i - 16 - 8 = i by omega]
  simp [hi]

@[simp] theorem lenField_commandWord (opc len : BitVec 8) (arg : BitVec 16) :
    lenField (commandWord opc len arg) = len := by
  apply BitVec.eq_of_getLsbD_eq
  intro i hi
  rw [lenField, BitVec.getLsbD_extractLsb', getLsbD_commandWord, if_neg (by omega), if_pos (by omega),
    show 16 + i - 16 = i by omega]
  simp [hi]

@[simp] theorem argField_commandWord (opc len : BitVec 8) (arg : BitVec 16) :
    argField (commandWord opc len arg) = arg := by
  apply BitVec.eq_of_getLsbD_eq
  intro i hi
  rw [argField, BitVec.getLsbD_extractLsb', getLsbD_commandWord, if_pos (by omega), Nat.zero_add]
  simp [hi]

/-- A word is made of its three fields (R70). -/
theorem commandWord_fields (w : Word) : commandWord (opcField w) (lenField w) (argField w) = w := by
  apply BitVec.eq_of_getLsbD_eq
  intro i hi
  rw [getLsbD_commandWord, opcField, lenField, argField]
  simp only [BitVec.getLsbD_extractLsb']
  split
  · simp [*]
  · split
    · simp [*, show 16 + (i - 16) = i by omega]
    · simp [show i - 16 - 8 < 8 by omega, show 24 + (i - 16 - 8) = i by omega]

/-- Two words are equal iff their fields are. -/
theorem word_eq_iff_fields (v w : Word) :
    v = w ↔ opcField v = opcField w ∧ lenField v = lenField w ∧ argField v = argField w := by
  constructor
  · rintro rfl; exact ⟨rfl, rfl, rfl⟩
  · rintro ⟨ho, hl, ha⟩
    rw [← commandWord_fields v, ← commandWord_fields w, ho, hl, ha]

theorem opcField_and (v w : Word) : opcField (v &&& w) = opcField v &&& opcField w := by
  simp [opcField, BitVec.extractLsb'_and]
theorem lenField_and (v w : Word) : lenField (v &&& w) = lenField v &&& lenField w := by
  simp [lenField, BitVec.extractLsb'_and]
theorem argField_and (v w : Word) : argField (v &&& w) = argField v &&& argField w := by
  simp [argField, BitVec.extractLsb'_and]

/-- A row whose mask has every bit admits its one word. -/
theorem admits_fixed (n : String) (p : Word) (b : Nat → Nat → Instr) (w : Word) :
    (OpRow.mk n p 0xFFFFFFFF b).admits w = decide (w = p) := by
  have : w &&& 0xFFFFFFFF#32 = w := BitVec.and_allOnes
  simp only [OpRow.admits]
  rw [show (0xFFFFFFFF : Word) = 0xFFFFFFFF#32 from rfl, this]
  rfl

theorem opc_allOnes (v : BitVec 8) : v &&& 0xFF#8 = v := BitVec.and_allOnes
theorem arg_allOnes (v : BitVec 16) : v &&& 0xFFFF#16 = v := BitVec.and_allOnes

/-- A row whose mask leaves `LEN` free admits the words with its `OPC` and `ARG`. -/
theorem admits_len (n : String) (p : Word) (b : Nat → Nat → Instr) (w : Word) (hp : lenField p = 0) :
    (OpRow.mk n p 0xFF00FFFF b).admits w = decide (opcField w = opcField p ∧ argField w = argField p) := by
  have h1 : opcField (0xFF00FFFF : Word) = 0xFF#8 := by decide
  have h2 : lenField (0xFF00FFFF : Word) = 0#8 := by decide
  have h3 : argField (0xFF00FFFF : Word) = 0xFFFF#16 := by decide
  rw [OpRow.admits, Bool.eq_iff_iff, beq_iff_eq, decide_eq_true_iff, word_eq_iff_fields, opcField_and, lenField_and,
    argField_and, h1, h2, h3, opc_allOnes, arg_allOnes, hp]
  simp

/-- A row whose mask leaves `ARG` free admits the words with its `OPC` and `LEN`. -/
theorem admits_arg (n : String) (p : Word) (b : Nat → Nat → Instr) (w : Word) (hp : argField p = 0) :
    (OpRow.mk n p 0xFFFF0000 b).admits w = decide (opcField w = opcField p ∧ lenField w = lenField p) := by
  have h1 : opcField (0xFFFF0000 : Word) = 0xFF#8 := by decide
  have h2 : lenField (0xFFFF0000 : Word) = 0xFF#8 := by decide
  have h3 : argField (0xFFFF0000 : Word) = 0#16 := by decide
  rw [OpRow.admits, Bool.eq_iff_iff, beq_iff_eq, decide_eq_true_iff, word_eq_iff_fields, opcField_and, lenField_and,
    argField_and, h1, h2, h3, opc_allOnes, opc_allOnes, hp]
  simp

/-- A row admits only words with its `OPC` (R78: "every mask includes bits [31:24]"). -/
theorem opc_of_admits {r : OpRow} (hr : r ∈ opTable) {w : Word} (h : r.admits w = true) :
    opcField w = opcField r.pattern := by
  have hm : opcField r.mask = 0xFF#8 := by
    revert r
    have : opTable.all (fun r => opcField r.mask == 0xFF#8) = true := by decide
    intro r hr _
    simpa using List.all_eq_true.mp this r hr
  rw [OpRow.admits, beq_iff_eq] at h
  have := congrArg opcField h
  rwa [opcField_and, hm, opc_allOnes] at this

end Sys2Proof
end

