-- ==== Sys2Proof/Laws/Memory.lean ====
section
/-! SUPPORT. The laws of the buffers: what each read gives after each write, what each batch operation does, entry by
entry, and that every operation keeps the canonical form. -/

namespace Sys2Proof.Machine

/-! ## One entry -/

theorem dibAt_setDib (m : Memory) (k j : Nat) (v : DataBlock) :
    (m.setDib k v).dibAt j = if j = k then v else m.dibAt j := store_get_set _ _ _ _
theorem cwbAt_setCwb (m : Memory) (k j : Nat) (v : TriWord) :
    (m.setCwb k v).cwbAt j = if j = k then v else m.cwbAt j := store_get_set _ _ _ _
theorem dobAt_setDob (m : Memory) (k j : Nat) (v : DobEntry) :
    (m.setDob k v).dobAt j = if j = k then v else m.dobAt j := store_get_set _ _ _ _
theorem chvAt_setChv (m : Memory) (c c' : Fin 7) (k j : Nat) (b : Bool) :
    (m.setChv c k b).chvAt c' j = if c' = c ∧ j = k then b else m.chvAt c' j := by
  by_cases h : c' = c
  · subst h; simp [Memory.chvAt, Memory.setChv, store_get_set]
  · simp [Memory.chvAt, Memory.setChv, h, Fin.val_inj, Ne.symm h]
theorem cheAt_setChe (m : Memory) (c c' : Fin 7) (k j : Nat) (b : Bool) :
    (m.setChe c k b).cheAt c' j = if c' = c ∧ j = k then b else m.cheAt c' j := by
  by_cases h : c' = c
  · subst h; simp [Memory.cheAt, Memory.setChe, store_get_set]
  · simp [Memory.cheAt, Memory.setChe, h, Fin.val_inj, Ne.symm h]

/-! A write of one buffer leaves the others as they are. -/

@[simp] theorem setDib_cwb (m : Memory) (k : Nat) (v : DataBlock) : (m.setDib k v).cwb = m.cwb := rfl
@[simp] theorem setDib_dob (m : Memory) (k : Nat) (v : DataBlock) : (m.setDib k v).dob = m.dob := rfl
@[simp] theorem setDib_chv (m : Memory) (k : Nat) (v : DataBlock) : (m.setDib k v).chv = m.chv := rfl
@[simp] theorem setDib_che (m : Memory) (k : Nat) (v : DataBlock) : (m.setDib k v).che = m.che := rfl
@[simp] theorem setCwb_dib (m : Memory) (k : Nat) (v : TriWord) : (m.setCwb k v).dib = m.dib := rfl
@[simp] theorem setCwb_dob (m : Memory) (k : Nat) (v : TriWord) : (m.setCwb k v).dob = m.dob := rfl
@[simp] theorem setCwb_chv (m : Memory) (k : Nat) (v : TriWord) : (m.setCwb k v).chv = m.chv := rfl
@[simp] theorem setCwb_che (m : Memory) (k : Nat) (v : TriWord) : (m.setCwb k v).che = m.che := rfl
@[simp] theorem setDob_dib (m : Memory) (k : Nat) (r : DobEntry) : (m.setDob k r).dib = m.dib := rfl
@[simp] theorem setDob_cwb (m : Memory) (k : Nat) (r : DobEntry) : (m.setDob k r).cwb = m.cwb := rfl
@[simp] theorem setDob_chv (m : Memory) (k : Nat) (r : DobEntry) : (m.setDob k r).chv = m.chv := rfl
@[simp] theorem setDob_che (m : Memory) (k : Nat) (r : DobEntry) : (m.setDob k r).che = m.che := rfl
@[simp] theorem setChv_dib (m : Memory) (c : Fin 7) (k : Nat) (b : Bool) : (m.setChv c k b).dib = m.dib := rfl
@[simp] theorem setChv_cwb (m : Memory) (c : Fin 7) (k : Nat) (b : Bool) : (m.setChv c k b).cwb = m.cwb := rfl
@[simp] theorem setChv_dob (m : Memory) (c : Fin 7) (k : Nat) (b : Bool) : (m.setChv c k b).dob = m.dob := rfl
@[simp] theorem setChv_che (m : Memory) (c : Fin 7) (k : Nat) (b : Bool) : (m.setChv c k b).che = m.che := rfl
@[simp] theorem setChe_dib (m : Memory) (c : Fin 7) (k : Nat) (b : Bool) : (m.setChe c k b).dib = m.dib := rfl
@[simp] theorem setChe_cwb (m : Memory) (c : Fin 7) (k : Nat) (b : Bool) : (m.setChe c k b).cwb = m.cwb := rfl
@[simp] theorem setChe_dob (m : Memory) (c : Fin 7) (k : Nat) (b : Bool) : (m.setChe c k b).dob = m.dob := rfl
@[simp] theorem setChe_chv (m : Memory) (c : Fin 7) (k : Nat) (b : Bool) : (m.setChe c k b).chv = m.chv := rfl

/-! A read depends on its buffer alone. -/

theorem dibAt_congr {m m' : Memory} (h : m'.dib = m.dib) (k : Nat) : m'.dibAt k = m.dibAt k := by
  simp [Memory.dibAt, h]
theorem cwbAt_congr {m m' : Memory} (h : m'.cwb = m.cwb) (k : Nat) : m'.cwbAt k = m.cwbAt k := by
  simp [Memory.cwbAt, h]
theorem dobAt_congr {m m' : Memory} (h : m'.dob = m.dob) (k : Nat) : m'.dobAt k = m.dobAt k := by
  simp [Memory.dobAt, h]
theorem chvAt_congr {m m' : Memory} (h : m'.chv = m.chv) (c : Fin 7) (k : Nat) : m'.chvAt c k = m.chvAt c k := by
  simp [Memory.chvAt, h]
theorem cheAt_congr {m m' : Memory} (h : m'.che = m.che) (c : Fin 7) (k : Nat) : m'.cheAt c k = m.cheAt c k := by
  simp [Memory.cheAt, h]

/-! ## The networks and the transpositions (R141 to R145) -/

@[simp] theorem scatterSlot_dib (m : Memory) (k : Nat) (w : TriWord) (c : Fin 7) :
    (m.scatterSlot k w c).dib = m.dib := rfl
@[simp] theorem scatterSlot_cwb (m : Memory) (k : Nat) (w : TriWord) (c : Fin 7) :
    (m.scatterSlot k w c).cwb = m.cwb := rfl
@[simp] theorem scatterSlot_dob (m : Memory) (k : Nat) (w : TriWord) (c : Fin 7) :
    (m.scatterSlot k w c).dob = m.dob := rfl

theorem mem_channels (c : Fin 7) : c ∈ channels := by revert c; decide

/-- One pass of the 1-to-7 network over some of the channels. -/
theorem scatterOver_spec (k : Nat) (w : TriWord) (l : List (Fin 7)) (m : Memory) :
    (∀ c j, (l.foldl (fun m c => Memory.scatterSlot m k w c) m).chvAt c j =
      if c ∈ l ∧ j = k then w.v.getLsbD c.val else m.chvAt c j) ∧
    (∀ c j, (l.foldl (fun m c => Memory.scatterSlot m k w c) m).cheAt c j =
      if c ∈ l ∧ j = k then w.e.getLsbD c.val else m.cheAt c j) := by
  induction l generalizing m with
  | nil => simp
  | cons d rest ih =>
    refine ⟨fun c j => ?_, fun c j => ?_⟩
    · rw [List.foldl_cons, (ih _).1, Memory.scatterSlot, chvAt_congr (setChe_chv _ _ _ _), chvAt_setChv]
      by_cases hc : c = d
      · subst hc; by_cases hj : j = k <;> simp [hj]
      · simp [hc]
    · rw [List.foldl_cons, (ih _).2, Memory.scatterSlot, cheAt_setChe, cheAt_congr (setChv_che _ _ _ _)]
      by_cases hc : c = d
      · subst hc; by_cases hj : j = k <;> simp [hj]
      · simp [hc]

theorem scatter_chvAt (m : Memory) (k : Nat) (w : TriWord) (c : Fin 7) (j : Nat) :
    (m.scatter k w).chvAt c j = if j = k then w.v.getLsbD c.val else m.chvAt c j := by
  rw [Memory.scatter, (scatterOver_spec k w channels m).1]
  simp [mem_channels]

theorem scatter_cheAt (m : Memory) (k : Nat) (w : TriWord) (c : Fin 7) (j : Nat) :
    (m.scatter k w).cheAt c j = if j = k then w.e.getLsbD c.val else m.cheAt c j := by
  rw [Memory.scatter, (scatterOver_spec k w channels m).2]
  simp [mem_channels]

/-- What no step of a fold changes, the fold does not change. -/
theorem foldl_frame {α σ β : Type} {f : σ → α → σ} (g : σ → β) (h : ∀ x a, g (f x a) = g x) (l : List α) (x : σ) :
    g (l.foldl f x) = g x := by
  induction l generalizing x with
  | nil => rfl
  | cons a rest ih => rw [List.foldl_cons, ih, h]

@[simp] theorem scatter_dib (m : Memory) (k : Nat) (w : TriWord) : (m.scatter k w).dib = m.dib :=
  foldl_frame Memory.dib (fun _ _ => by simp) channels m
@[simp] theorem scatter_cwb (m : Memory) (k : Nat) (w : TriWord) : (m.scatter k w).cwb = m.cwb :=
  foldl_frame Memory.cwb (fun _ _ => by simp) channels m
@[simp] theorem scatter_dob (m : Memory) (k : Nat) (w : TriWord) : (m.scatter k w).dob = m.dob :=
  foldl_frame Memory.dob (fun _ _ => by simp) channels m

@[simp] theorem gather_v (m : Memory) (k : Nat) (c : Fin 7) : (m.gather k).v.getLsbD c.val = m.chvAt c k := by
  simp [Memory.gather]
@[simp] theorem gather_e (m : Memory) (k : Nat) (c : Fin 7) : (m.gather k).e.getLsbD c.val = m.cheAt c k := by
  simp [Memory.gather]

/-- Two codewords with the same slots are the same codeword. -/
theorem triWord_ext {a b : TriWord} (hv : ∀ c : Fin 7, a.v.getLsbD c.val = b.v.getLsbD c.val)
    (he : ∀ c : Fin 7, a.e.getLsbD c.val = b.e.getLsbD c.val) : a = b := by
  obtain ⟨av, ae⟩ := a
  obtain ⟨bv, be⟩ := b
  congr
  · exact BitVec.eq_of_getLsbD_eq fun i hi => hv ⟨i, hi⟩
  · exact BitVec.eq_of_getLsbD_eq fun i hi => he ⟨i, hi⟩

/-- A gather reads the channels at its position alone. -/
theorem gather_congr {m m' : Memory} {k j : Nat} (hv : ∀ c, m'.chvAt c j = m.chvAt c k)
    (he : ∀ c, m'.cheAt c j = m.cheAt c k) : m'.gather j = m.gather k :=
  triWord_ext (fun c => by simp only [gather_v, hv]) (fun c => by simp only [gather_e, he])

@[simp] theorem interleave_dib (m : Memory) (n : Nat) : (m.interleave n).dib = m.dib :=
  forUpTo_frame Memory.dib (fun _ _ => by simp) n m
@[simp] theorem interleave_cwb (m : Memory) (n : Nat) : (m.interleave n).cwb = m.cwb :=
  forUpTo_frame Memory.cwb (fun _ _ => by simp) n m
@[simp] theorem interleave_dob (m : Memory) (n : Nat) : (m.interleave n).dob = m.dob :=
  forUpTo_frame Memory.dob (fun _ _ => by simp) n m

theorem interleave_chvAt (m : Memory) (n : Nat) (c : Fin 7) (j : Nat) :
    (m.interleave n).chvAt c j = if j < n then (m.cwbAt j).v.getLsbD c.val else m.chvAt c j := by
  refine (forUpTo_induct (fun k (y : Memory) => y.cwb = m.cwb ∧
    y.chvAt c j = if j < k then (m.cwbAt j).v.getLsbD c.val else m.chvAt c j) n ⟨rfl, by simp⟩ ?_).2
  rintro k y - ⟨hc, hy⟩
  refine ⟨by simp [hc], ?_⟩
  rw [scatter_chvAt, hy, cwbAt_congr hc]
  by_cases h : j = k
  · subst h; simp
  · simp [h, show j < k + 1 ↔ j < k by omega]

theorem interleave_cheAt (m : Memory) (n : Nat) (c : Fin 7) (j : Nat) :
    (m.interleave n).cheAt c j = if j < n then (m.cwbAt j).e.getLsbD c.val else m.cheAt c j := by
  refine (forUpTo_induct (fun k (y : Memory) => y.cwb = m.cwb ∧
    y.cheAt c j = if j < k then (m.cwbAt j).e.getLsbD c.val else m.cheAt c j) n ⟨rfl, by simp⟩ ?_).2
  rintro k y - ⟨hc, hy⟩
  refine ⟨by simp [hc], ?_⟩
  rw [scatter_cheAt, hy, cwbAt_congr hc]
  by_cases h : j = k
  · subst h; simp
  · simp [h, show j < k + 1 ↔ j < k by omega]

@[simp] theorem deinterleave_dib (m : Memory) (n : Nat) : (m.deinterleave n).dib = m.dib :=
  forUpTo_frame Memory.dib (fun _ _ => by simp) n m
@[simp] theorem deinterleave_dob (m : Memory) (n : Nat) : (m.deinterleave n).dob = m.dob :=
  forUpTo_frame Memory.dob (fun _ _ => by simp) n m
@[simp] theorem deinterleave_chv (m : Memory) (n : Nat) : (m.deinterleave n).chv = m.chv :=
  forUpTo_frame Memory.chv (fun _ _ => by simp) n m
@[simp] theorem deinterleave_che (m : Memory) (n : Nat) : (m.deinterleave n).che = m.che :=
  forUpTo_frame Memory.che (fun _ _ => by simp) n m

theorem deinterleave_cwbAt (m : Memory) (n j : Nat) :
    (m.deinterleave n).cwbAt j = if j < n then m.gather j else m.cwbAt j := by
  refine (forUpTo_induct (fun k (y : Memory) => (y.chv = m.chv ∧ y.che = m.che) ∧
    y.cwbAt j = if j < k then m.gather j else m.cwbAt j) n ⟨⟨rfl, rfl⟩, by simp⟩ ?_).2
  rintro k y - ⟨⟨hv, he⟩, hy⟩
  refine ⟨by simp [hv, he], ?_⟩
  rw [cwbAt_setCwb, hy, gather_congr (chvAt_congr hv · k) (cheAt_congr he · k)]
  by_cases h : j = k
  · subst h; simp
  · simp [h, show j < k + 1 ↔ j < k by omega]

/-! ## Loss and the end of a batch (R151, R152) -/

@[simp] theorem markLost_dib (m : Memory) (c : Fin 7) (n : Nat) : (m.markLost c n).dib = m.dib :=
  forUpTo_frame Memory.dib (fun _ _ => by simp) n m
@[simp] theorem markLost_cwb (m : Memory) (c : Fin 7) (n : Nat) : (m.markLost c n).cwb = m.cwb :=
  forUpTo_frame Memory.cwb (fun _ _ => by simp) n m
@[simp] theorem markLost_dob (m : Memory) (c : Fin 7) (n : Nat) : (m.markLost c n).dob = m.dob :=
  forUpTo_frame Memory.dob (fun _ _ => by simp) n m
@[simp] theorem markLost_chv (m : Memory) (c : Fin 7) (n : Nat) : (m.markLost c n).chv = m.chv :=
  forUpTo_frame Memory.chv (fun _ _ => by simp) n m

theorem markLost_cheAt (m : Memory) (c : Fin 7) (n : Nat) (c' : Fin 7) (j : Nat) :
    (m.markLost c n).cheAt c' j = if c' = c ∧ j < n then true else m.cheAt c' j := by
  refine forUpTo_induct (fun k (y : Memory) => y.cheAt c' j = if c' = c ∧ j < k then true else m.cheAt c' j) n (by simp) ?_
  intro k y _ hy
  rw [cheAt_setChe, hy]
  by_cases hc : c' = c <;> by_cases h : j = k
  · simp [hc, h]
  · simp [hc, h, show j < k + 1 ↔ j < k by omega]
  · simp [hc]
  · simp [hc]

@[simp] theorem clearErasures_dib (m : Memory) (n : Nat) : (m.clearErasures n).dib = m.dib := rfl
@[simp] theorem clearErasures_cwb (m : Memory) (n : Nat) : (m.clearErasures n).cwb = m.cwb := rfl
@[simp] theorem clearErasures_dob (m : Memory) (n : Nat) : (m.clearErasures n).dob = m.dob := rfl
@[simp] theorem clearErasures_chv (m : Memory) (n : Nat) : (m.clearErasures n).chv = m.chv := rfl

theorem clearErasures_cheAt (m : Memory) (n : Nat) (c : Fin 7) (j : Nat) :
    (m.clearErasures n).cheAt c j = if j < n then false else m.cheAt c j := by
  simp [Memory.cheAt, Memory.clearErasures, store_get_clearBelow]

/-! ## The batch codec (R191, R192) -/

@[simp] theorem encodeBatch_dib (m : Memory) (n : Nat) : (m.encodeBatch n).dib = m.dib :=
  forUpTo_frame Memory.dib (fun _ _ => by simp) n m
@[simp] theorem encodeBatch_dob (m : Memory) (n : Nat) : (m.encodeBatch n).dob = m.dob :=
  forUpTo_frame Memory.dob (fun _ _ => by simp) n m
@[simp] theorem encodeBatch_chv (m : Memory) (n : Nat) : (m.encodeBatch n).chv = m.chv :=
  forUpTo_frame Memory.chv (fun _ _ => by simp) n m
@[simp] theorem encodeBatch_che (m : Memory) (n : Nat) : (m.encodeBatch n).che = m.che :=
  forUpTo_frame Memory.che (fun _ _ => by simp) n m

theorem encodeBatch_cwbAt (m : Memory) (n j : Nat) :
    (m.encodeBatch n).cwbAt j = if j < n then { v := enc (m.dibAt j), e := 0 } else m.cwbAt j := by
  refine (forUpTo_induct (fun k (y : Memory) => y.dib = m.dib ∧
    y.cwbAt j = if j < k then { v := enc (m.dibAt j), e := 0 } else m.cwbAt j) n ⟨rfl, by simp⟩ ?_).2
  rintro k y - ⟨hd, hy⟩
  refine ⟨by simp [hd], ?_⟩
  rw [cwbAt_setCwb, hy, dibAt_congr hd]
  by_cases h : j = k
  · subst h; simp
  · simp [h, show j < k + 1 ↔ j < k by omega]

@[simp] theorem decodeBatch_dib (m : Memory) (n : Nat) : (m.decodeBatch n).dib = m.dib :=
  forUpTo_frame Memory.dib (fun _ _ => by simp) n m
@[simp] theorem decodeBatch_cwb (m : Memory) (n : Nat) : (m.decodeBatch n).cwb = m.cwb :=
  forUpTo_frame Memory.cwb (fun _ _ => by simp) n m
@[simp] theorem decodeBatch_chv (m : Memory) (n : Nat) : (m.decodeBatch n).chv = m.chv :=
  forUpTo_frame Memory.chv (fun _ _ => by simp) n m
@[simp] theorem decodeBatch_che (m : Memory) (n : Nat) : (m.decodeBatch n).che = m.che :=
  forUpTo_frame Memory.che (fun _ _ => by simp) n m

theorem decodeBatch_dobAt (m : Memory) (n j : Nat) :
    (m.decodeBatch n).dobAt j = if j < n then decodeBlock (m.cwbAt j) else m.dobAt j := by
  refine (forUpTo_induct (fun k (y : Memory) => y.cwb = m.cwb ∧
    y.dobAt j = if j < k then decodeBlock (m.cwbAt j) else m.dobAt j) n ⟨rfl, by simp⟩ ?_).2
  rintro k y - ⟨hd, hy⟩
  refine ⟨by simp [hd], ?_⟩
  rw [dobAt_setDob, hy, cwbAt_congr hd]
  by_cases h : j = k
  · subst h; simp
  · simp [h, show j < k + 1 ↔ j < k by omega]

theorem batchFlag_eq_true (m : Memory) (n : Nat) (flag : DobEntry → Bool) :
    m.batchFlag n flag = true ↔ ∃ k, k < n ∧ flag (decodeBlock (m.cwbAt k)) = true := anyUpTo_eq_true _ _

/-! ## Channel words (R59) -/

theorem packChannel_bit (nmax : Nat) (slot : Nat → Bool) (w j : Nat) (hj : j < 32) :
    (packChannel nmax slot w).getLsbD j = (decide (32 * w + j < nmax) && slot (32 * w + j)) := by
  simp [packChannel, hj]

theorem unpackChv_chvAt (nmax : Nat) (c : Fin 7) (w : Nat) (v : Word) (m : Memory) (c' : Fin 7) (j : Nat) :
    (unpackChannel nmax (fun k b m => m.setChv c k b) w v m).chvAt c' j =
      if c' = c ∧ 32 * w ≤ j ∧ j < 32 * w + 32 ∧ j < nmax then v.getLsbD (j - 32 * w) else m.chvAt c' j := by
  refine forUpTo_induct (fun i (y : Memory) => y.chvAt c' j =
    if c' = c ∧ 32 * w ≤ j ∧ j < 32 * w + i ∧ j < nmax then v.getLsbD (j - 32 * w) else m.chvAt c' j) 32
    (by simp; omega) ?_
  intro i y _ hy
  by_cases hc : c' = c
  · subst hc
    by_cases hj : j = 32 * w + i
    · subst hj
      by_cases hn : 32 * w + i < nmax <;> simp [hn, chvAt_setChv, hy]
    · have h : (32 * w ≤ j ∧ j < 32 * w + (i + 1) ∧ j < nmax) ↔ (32 * w ≤ j ∧ j < 32 * w + i ∧ j < nmax) := by omega
      by_cases hn : 32 * w + i < nmax <;> simp [hn, chvAt_setChv, hy, hj, h]
  · by_cases hn : 32 * w + i < nmax <;> simp [hn, chvAt_setChv, hy, hc]

@[simp] theorem unpackChv_dib (nmax : Nat) (c : Fin 7) (w : Nat) (v : Word) (m : Memory) :
    (unpackChannel nmax (fun k b m => m.setChv c k b) w v m).dib = m.dib :=
  forUpTo_frame Memory.dib (fun _ _ => by split <;> simp) 32 m
@[simp] theorem unpackChv_cwb (nmax : Nat) (c : Fin 7) (w : Nat) (v : Word) (m : Memory) :
    (unpackChannel nmax (fun k b m => m.setChv c k b) w v m).cwb = m.cwb :=
  forUpTo_frame Memory.cwb (fun _ _ => by split <;> simp) 32 m
@[simp] theorem unpackChv_dob (nmax : Nat) (c : Fin 7) (w : Nat) (v : Word) (m : Memory) :
    (unpackChannel nmax (fun k b m => m.setChv c k b) w v m).dob = m.dob :=
  forUpTo_frame Memory.dob (fun _ _ => by split <;> simp) 32 m
@[simp] theorem unpackChv_che (nmax : Nat) (c : Fin 7) (w : Nat) (v : Word) (m : Memory) :
    (unpackChannel nmax (fun k b m => m.setChv c k b) w v m).che = m.che :=
  forUpTo_frame Memory.che (fun _ _ => by split <;> simp) 32 m

theorem unpackChe_cheAt (nmax : Nat) (c : Fin 7) (w : Nat) (v : Word) (m : Memory) (c' : Fin 7) (j : Nat) :
    (unpackChannel nmax (fun k b m => m.setChe c k b) w v m).cheAt c' j =
      if c' = c ∧ 32 * w ≤ j ∧ j < 32 * w + 32 ∧ j < nmax then v.getLsbD (j - 32 * w) else m.cheAt c' j := by
  refine forUpTo_induct (fun i (y : Memory) => y.cheAt c' j =
    if c' = c ∧ 32 * w ≤ j ∧ j < 32 * w + i ∧ j < nmax then v.getLsbD (j - 32 * w) else m.cheAt c' j) 32
    (by simp; omega) ?_
  intro i y _ hy
  by_cases hc : c' = c
  · subst hc
    by_cases hj : j = 32 * w + i
    · subst hj
      by_cases hn : 32 * w + i < nmax <;> simp [hn, cheAt_setChe, hy]
    · have h : (32 * w ≤ j ∧ j < 32 * w + (i + 1) ∧ j < nmax) ↔ (32 * w ≤ j ∧ j < 32 * w + i ∧ j < nmax) := by omega
      by_cases hn : 32 * w + i < nmax <;> simp [hn, cheAt_setChe, hy, hj, h]
  · by_cases hn : 32 * w + i < nmax <;> simp [hn, cheAt_setChe, hy, hc]

@[simp] theorem unpackChe_dib (nmax : Nat) (c : Fin 7) (w : Nat) (v : Word) (m : Memory) :
    (unpackChannel nmax (fun k b m => m.setChe c k b) w v m).dib = m.dib :=
  forUpTo_frame Memory.dib (fun _ _ => by split <;> simp) 32 m
@[simp] theorem unpackChe_cwb (nmax : Nat) (c : Fin 7) (w : Nat) (v : Word) (m : Memory) :
    (unpackChannel nmax (fun k b m => m.setChe c k b) w v m).cwb = m.cwb :=
  forUpTo_frame Memory.cwb (fun _ _ => by split <;> simp) 32 m
@[simp] theorem unpackChe_dob (nmax : Nat) (c : Fin 7) (w : Nat) (v : Word) (m : Memory) :
    (unpackChannel nmax (fun k b m => m.setChe c k b) w v m).dob = m.dob :=
  forUpTo_frame Memory.dob (fun _ _ => by split <;> simp) 32 m
@[simp] theorem unpackChe_chv (nmax : Nat) (c : Fin 7) (w : Nat) (v : Word) (m : Memory) :
    (unpackChannel nmax (fun k b m => m.setChe c k b) w v m).chv = m.chv :=
  forUpTo_frame Memory.chv (fun _ _ => by split <;> simp) 32 m

/-! ## The canonical form -/

/-- The buffers after reset are in canonical form. -/
theorem cleared_wf (nmax : Nat) : Memory.wf nmax Memory.cleared := by
  simp [Memory.wf, Memory.cleared, Store.wf]

theorem setDib_wf {n : Nat} {m : Memory} (h : m.wf n) {k : Nat} (hk : k < n) (v : DataBlock) : (m.setDib k v).wf n :=
  ⟨store_wf_set v h.1 hk, h.2⟩

theorem setCwb_wf {n : Nat} {m : Memory} (h : m.wf n) {k : Nat} (hk : k < n) (v : TriWord) : (m.setCwb k v).wf n :=
  ⟨h.1, store_wf_set v h.2.1 hk, h.2.2⟩

theorem setDob_wf {n : Nat} {m : Memory} (h : m.wf n) {k : Nat} (hk : k < n) (r : DobEntry) : (m.setDob k r).wf n :=
  ⟨h.1, h.2.1, store_wf_set r h.2.2.1 hk, h.2.2.2⟩

/-- A vector of buffers stays in canonical form when one of them is replaced by one in canonical form. -/
theorem vector_set_wf {n : Nat} {v : Vector (Store Bool) 7} (h : ∀ c : Fin 7, Store.wf n v[c]) (c : Fin 7)
    {b : Store Bool} (hb : Store.wf n b) : ∀ c' : Fin 7, Store.wf n (v.set c b)[c'] := by
  intro c'
  by_cases hc : c.val = c'.val
  · simpa [Vector.getElem_set, hc] using hb
  · simpa [Vector.getElem_set, hc] using h c'

theorem setChv_wf {n : Nat} {m : Memory} (h : m.wf n) (c : Fin 7) {k : Nat} (hk : k < n) (b : Bool) :
    (m.setChv c k b).wf n :=
  ⟨h.1, h.2.1, h.2.2.1, vector_set_wf h.2.2.2.1 c (store_wf_set b (h.2.2.2.1 c) hk), h.2.2.2.2⟩

theorem setChe_wf {n : Nat} {m : Memory} (h : m.wf n) (c : Fin 7) {k : Nat} (hk : k < n) (b : Bool) :
    (m.setChe c k b).wf n :=
  ⟨h.1, h.2.1, h.2.2.1, h.2.2.2.1, vector_set_wf h.2.2.2.2 c (store_wf_set b (h.2.2.2.2 c) hk)⟩

/-- A loop whose passes keep the canonical form keeps it. -/
theorem forUpTo_wf {n : Nat} {f : Nat → Memory → Memory} {m : Memory} (b : Nat) (h : m.wf n)
    (pass : ∀ k y, k < b → Memory.wf n y → Memory.wf n (f k y)) : (forUpTo f b m).wf n :=
  forUpTo_induct (fun _ (y : Memory) => y.wf n) b h pass

theorem scatter_wf {n : Nat} {m : Memory} (h : m.wf n) {k : Nat} (hk : k < n) (w : TriWord) : (m.scatter k w).wf n := by
  unfold Memory.scatter
  induction channels generalizing m with
  | nil => exact h
  | cons c rest ih => exact ih (setChe_wf (setChv_wf h c hk _) c hk _)

theorem interleave_wf {n : Nat} {m : Memory} (h : m.wf n) {b : Nat} (hb : b ≤ n) : (m.interleave b).wf n :=
  forUpTo_wf b h fun _ _ hk hy => scatter_wf hy (Nat.lt_of_lt_of_le hk hb) _

theorem deinterleave_wf {n : Nat} {m : Memory} (h : m.wf n) {b : Nat} (hb : b ≤ n) : (m.deinterleave b).wf n :=
  forUpTo_wf b h fun _ _ hk hy => setCwb_wf hy (Nat.lt_of_lt_of_le hk hb) _

theorem markLost_wf {n : Nat} {m : Memory} (h : m.wf n) (c : Fin 7) {b : Nat} (hb : b ≤ n) : (m.markLost c b).wf n :=
  forUpTo_wf b h fun _ _ hk hy => setChe_wf hy c (Nat.lt_of_lt_of_le hk hb) _

theorem clearErasures_wf {n : Nat} {m : Memory} (h : m.wf n) (b : Nat) : (m.clearErasures b).wf n :=
  ⟨h.1, h.2.1, h.2.2.1, h.2.2.2.1, fun c => by
    simpa [Memory.clearErasures] using store_wf_clearBelow b (h.2.2.2.2 c)⟩

theorem encodeBatch_wf {n : Nat} {m : Memory} (h : m.wf n) {b : Nat} (hb : b ≤ n) : (m.encodeBatch b).wf n :=
  forUpTo_wf b h fun _ _ hk hy => setCwb_wf hy (Nat.lt_of_lt_of_le hk hb) _

theorem decodeBatch_wf {n : Nat} {m : Memory} (h : m.wf n) {b : Nat} (hb : b ≤ n) : (m.decodeBatch b).wf n :=
  forUpTo_wf b h fun _ _ hk hy => setDob_wf hy (Nat.lt_of_lt_of_le hk hb) _

theorem unpackChannel_wf {n : Nat} {m : Memory} (h : m.wf n) {put : Nat → Bool → Memory → Memory} (w : Nat) (v : Word)
    (hput : ∀ k b y, k < n → Memory.wf n y → (put k b y).wf n) : (unpackChannel n put w v m).wf n :=
  forUpTo_wf 32 h fun _ y _ hy => by
    split
    · exact hput _ _ y ‹_› hy
    · exact hy

/-- Two memories in canonical form that read alike are equal data. -/
theorem memory_ext {n : Nat} {a b : Memory} (ha : a.wf n) (hb : b.wf n) (hdib : ∀ k, a.dibAt k = b.dibAt k)
    (hcwb : ∀ k, a.cwbAt k = b.cwbAt k) (hdob : ∀ k, a.dobAt k = b.dobAt k)
    (hchv : ∀ c k, a.chvAt c k = b.chvAt c k) (hche : ∀ c k, a.cheAt c k = b.cheAt c k) : a = b := by
  obtain ⟨adib, acwb, adob, achv, ache⟩ := a
  obtain ⟨bdib, bcwb, bdob, bchv, bche⟩ := b
  obtain ⟨a1, a2, a3, a4, a5⟩ := ha
  obtain ⟨b1, b2, b3, b4, b5⟩ := hb
  congr
  · exact store_ext a1 b1 hdib
  · exact store_ext a2 b2 hcwb
  · exact store_ext a3 b3 hdob
  · exact Vector.ext fun i hi => store_ext (a4 ⟨i, hi⟩) (b4 ⟨i, hi⟩) (hchv ⟨i, hi⟩)
  · exact Vector.ext fun i hi => store_ext (a5 ⟨i, hi⟩) (b5 ⟨i, hi⟩) (hche ⟨i, hi⟩)

end Sys2Proof.Machine
end

