-- ==== Sys2Proof/Laws/PerInstr.lean ====
section
/-! SUPPORT. Facts about every command as syntax, made per constructor. Family `EncodedFields`: the three fields of a
command's word are its `OPC`, `LEN` and `ARG` of R75, with nothing cut off for a well-formed command. -/

namespace Sys2Proof.Laws.EncodedFields

/-- The fields of the word of a well-formed command. -/
def Statement (i : Instr) : Prop :=
  i.WellFormed → opcField (encode i) = i.opc ∧ (lenField (encode i)).toNat = i.len ∧ (argField (encode i)).toNat = i.arg

/-- The fields of any command's word, when its operands fit. -/
theorem of_fits (i : Instr) (hl : i.WellFormed → i.len < 256) (ha : i.WellFormed → i.arg < 65536) : Statement i := by
  intro h
  have h1 := hl h
  have h2 := ha h
  simp only [encode, opcField_commandWord, lenField_commandWord, argField_commandWord, BitVec.toNat_ofNat, true_and]
  omega

theorem nop : Statement .nop := of_fits _ (fun _ => by decide) (fun _ => by decide)
theorem mvg : Statement .mvg := of_fits _ (fun _ => by decide) (fun _ => by decide)
theorem mvh : Statement .mvh := of_fits _ (fun _ => by decide) (fun _ => by decide)
theorem clrerr : Statement .clrerr := of_fits _ (fun _ => by decide) (fun _ => by decide)
theorem enc (len : Nat) : Statement (.enc len) :=
  of_fits _ (fun h => by simp [Instr.WellFormed, Instr.wf] at h; simp only [Instr.len]; omega) (fun _ => by simp [Instr.arg])
theorem dec (len : Nat) : Statement (.dec len) :=
  of_fits _ (fun h => by simp [Instr.WellFormed, Instr.wf] at h; simp only [Instr.len]; omega) (fun _ => by simp [Instr.arg])
theorem edec : Statement .edec := of_fits _ (fun _ => by decide) (fun _ => by decide)
theorem ilv : Statement .ilv := of_fits _ (fun _ => by decide) (fun _ => by decide)
theorem ilv1 (k : Nat) : Statement (.ilv1 k) :=
  of_fits _ (fun _ => by simp [Instr.len]) (fun h => by simp [Instr.WellFormed, Instr.wf] at h; simp only [Instr.arg]; omega)
theorem dil (k : Nat) : Statement (.dil k) :=
  of_fits _ (fun _ => by simp [Instr.len]) (fun h => by simp [Instr.WellFormed, Instr.wf] at h; simp only [Instr.arg]; omega)
theorem dilb : Statement .dilb := of_fits _ (fun _ => by decide) (fun _ => by decide)
theorem chrdy (c : Nat) : Statement (.chrdy c) :=
  of_fits _ (fun _ => by simp [Instr.len]) (fun h => by simp [Instr.WellFormed, Instr.wf] at h; simp only [Instr.arg]; omega)
theorem chlost (c : Nat) : Statement (.chlost c) :=
  of_fits _ (fun _ => by simp [Instr.len]) (fun h => by simp [Instr.WellFormed, Instr.wf] at h; simp only [Instr.arg]; omega)
theorem bclr : Statement .bclr := of_fits _ (fun _ => by decide) (fun _ => by decide)
theorem encb : Statement .encb := of_fits _ (fun _ => by decide) (fun _ => by decide)
theorem decb : Statement .decb := of_fits _ (fun _ => by decide) (fun _ => by decide)

/-- The family's fact holds of every command. -/
theorem of_instr (i : Instr) : Statement i :=
  match i with
  | .nop => nop
  | .mvg => mvg
  | .mvh => mvh
  | .clrerr => clrerr
  | .enc len => enc len
  | .dec len => dec len
  | .edec => edec
  | .ilv => ilv
  | .ilv1 k => ilv1 k
  | .dil k => dil k
  | .dilb => dilb
  | .chrdy c => chrdy c
  | .chlost c => chlost c
  | .bclr => bclr
  | .encb => encb
  | .decb => decb

end Sys2Proof.Laws.EncodedFields
end

