-- ==== Sys2Proof/Laws/State.lean ====
section
/-! SUPPORT. What each update of the state leaves in each field, one lemma per field per update, and the fields of the
reset state. -/

namespace Sys2Proof.Machine

/-! `State.withC`. -/

@[simp] theorem withC_cfg (s : State) (w : TriWord) : (s.withC w).cfg = s.cfg := rfl
@[simp] theorem withC_status (s : State) (w : TriWord) : (s.withC w).status = s.status := rfl
@[simp] theorem withC_regD (s : State) (w : TriWord) : (s.withC w).regD = s.regD := rfl
@[simp] theorem withC_regC (s : State) (w : TriWord) : (s.withC w).regC = w := rfl
@[simp] theorem withC_regS (s : State) (w : TriWord) : (s.withC w).regS = s.regS := rfl
@[simp] theorem withC_regP (s : State) (w : TriWord) : (s.withC w).regP = s.regP := rfl
@[simp] theorem withC_regQ (s : State) (w : TriWord) : (s.withC w).regQ = s.regQ := rfl
@[simp] theorem withC_regCC (s : State) (w : TriWord) : (s.withC w).regCC = s.regCC := rfl
@[simp] theorem withC_regN (s : State) (w : TriWord) : (s.withC w).regN = s.regN := rfl
@[simp] theorem withC_chstat (s : State) (w : TriWord) : (s.withC w).chstat = s.chstat := rfl
@[simp] theorem withC_errcmd (s : State) (w : TriWord) : (s.withC w).errcmd = s.errcmd := rfl
@[simp] theorem withC_mem (s : State) (w : TriWord) : (s.withC w).mem = s.mem := rfl
@[simp] theorem withC_bus (s : State) (w : TriWord) : (s.withC w).bus = s.bus := rfl
@[simp] theorem withC_reply (s : State) (w : TriWord) : (s.withC w).reply = s.reply := rfl
@[simp] theorem withC_faultLog (s : State) (w : TriWord) : (s.withC w).faultLog = s.faultLog := rfl

/-! `State.withS`. -/

@[simp] theorem withS_cfg (s : State) (v : Syndrome) : (s.withS v).cfg = s.cfg := rfl
@[simp] theorem withS_status (s : State) (v : Syndrome) : (s.withS v).status = s.status := rfl
@[simp] theorem withS_regD (s : State) (v : Syndrome) : (s.withS v).regD = s.regD := rfl
@[simp] theorem withS_regC (s : State) (v : Syndrome) : (s.withS v).regC = s.regC := rfl
@[simp] theorem withS_regS (s : State) (v : Syndrome) : (s.withS v).regS = v := rfl
@[simp] theorem withS_regP (s : State) (v : Syndrome) : (s.withS v).regP = s.regP := rfl
@[simp] theorem withS_regQ (s : State) (v : Syndrome) : (s.withS v).regQ = s.regQ := rfl
@[simp] theorem withS_regCC (s : State) (v : Syndrome) : (s.withS v).regCC = s.regCC := rfl
@[simp] theorem withS_regN (s : State) (v : Syndrome) : (s.withS v).regN = s.regN := rfl
@[simp] theorem withS_chstat (s : State) (v : Syndrome) : (s.withS v).chstat = s.chstat := rfl
@[simp] theorem withS_errcmd (s : State) (v : Syndrome) : (s.withS v).errcmd = s.errcmd := rfl
@[simp] theorem withS_mem (s : State) (v : Syndrome) : (s.withS v).mem = s.mem := rfl
@[simp] theorem withS_bus (s : State) (v : Syndrome) : (s.withS v).bus = s.bus := rfl
@[simp] theorem withS_reply (s : State) (v : Syndrome) : (s.withS v).reply = s.reply := rfl
@[simp] theorem withS_faultLog (s : State) (v : Syndrome) : (s.withS v).faultLog = s.faultLog := rfl

/-! `State.withDecoded`. -/

@[simp] theorem withDecoded_cfg (s : State) (sy p : Syndrome) (cc : Bits7) (q : DataBlock) : (s.withDecoded sy p cc q).cfg = s.cfg := rfl
@[simp] theorem withDecoded_status (s : State) (sy p : Syndrome) (cc : Bits7) (q : DataBlock) : (s.withDecoded sy p cc q).status = s.status := rfl
@[simp] theorem withDecoded_regD (s : State) (sy p : Syndrome) (cc : Bits7) (q : DataBlock) : (s.withDecoded sy p cc q).regD = s.regD := rfl
@[simp] theorem withDecoded_regC (s : State) (sy p : Syndrome) (cc : Bits7) (q : DataBlock) : (s.withDecoded sy p cc q).regC = s.regC := rfl
@[simp] theorem withDecoded_regS (s : State) (sy p : Syndrome) (cc : Bits7) (q : DataBlock) : (s.withDecoded sy p cc q).regS = sy := rfl
@[simp] theorem withDecoded_regP (s : State) (sy p : Syndrome) (cc : Bits7) (q : DataBlock) : (s.withDecoded sy p cc q).regP = p := rfl
@[simp] theorem withDecoded_regQ (s : State) (sy p : Syndrome) (cc : Bits7) (q : DataBlock) : (s.withDecoded sy p cc q).regQ = q := rfl
@[simp] theorem withDecoded_regCC (s : State) (sy p : Syndrome) (cc : Bits7) (q : DataBlock) : (s.withDecoded sy p cc q).regCC = cc := rfl
@[simp] theorem withDecoded_regN (s : State) (sy p : Syndrome) (cc : Bits7) (q : DataBlock) : (s.withDecoded sy p cc q).regN = s.regN := rfl
@[simp] theorem withDecoded_chstat (s : State) (sy p : Syndrome) (cc : Bits7) (q : DataBlock) : (s.withDecoded sy p cc q).chstat = s.chstat := rfl
@[simp] theorem withDecoded_errcmd (s : State) (sy p : Syndrome) (cc : Bits7) (q : DataBlock) : (s.withDecoded sy p cc q).errcmd = s.errcmd := rfl
@[simp] theorem withDecoded_mem (s : State) (sy p : Syndrome) (cc : Bits7) (q : DataBlock) : (s.withDecoded sy p cc q).mem = s.mem := rfl
@[simp] theorem withDecoded_bus (s : State) (sy p : Syndrome) (cc : Bits7) (q : DataBlock) : (s.withDecoded sy p cc q).bus = s.bus := rfl
@[simp] theorem withDecoded_reply (s : State) (sy p : Syndrome) (cc : Bits7) (q : DataBlock) : (s.withDecoded sy p cc q).reply = s.reply := rfl
@[simp] theorem withDecoded_faultLog (s : State) (sy p : Syndrome) (cc : Bits7) (q : DataBlock) : (s.withDecoded sy p cc q).faultLog = s.faultLog := rfl

/-! `State.withChstat`. -/

@[simp] theorem withChstat_cfg (s : State) (v : Bits7) : (s.withChstat v).cfg = s.cfg := rfl
@[simp] theorem withChstat_status (s : State) (v : Bits7) : (s.withChstat v).status = s.status := rfl
@[simp] theorem withChstat_regD (s : State) (v : Bits7) : (s.withChstat v).regD = s.regD := rfl
@[simp] theorem withChstat_regC (s : State) (v : Bits7) : (s.withChstat v).regC = s.regC := rfl
@[simp] theorem withChstat_regS (s : State) (v : Bits7) : (s.withChstat v).regS = s.regS := rfl
@[simp] theorem withChstat_regP (s : State) (v : Bits7) : (s.withChstat v).regP = s.regP := rfl
@[simp] theorem withChstat_regQ (s : State) (v : Bits7) : (s.withChstat v).regQ = s.regQ := rfl
@[simp] theorem withChstat_regCC (s : State) (v : Bits7) : (s.withChstat v).regCC = s.regCC := rfl
@[simp] theorem withChstat_regN (s : State) (v : Bits7) : (s.withChstat v).regN = s.regN := rfl
@[simp] theorem withChstat_chstat (s : State) (v : Bits7) : (s.withChstat v).chstat = v := rfl
@[simp] theorem withChstat_errcmd (s : State) (v : Bits7) : (s.withChstat v).errcmd = s.errcmd := rfl
@[simp] theorem withChstat_mem (s : State) (v : Bits7) : (s.withChstat v).mem = s.mem := rfl
@[simp] theorem withChstat_bus (s : State) (v : Bits7) : (s.withChstat v).bus = s.bus := rfl
@[simp] theorem withChstat_reply (s : State) (v : Bits7) : (s.withChstat v).reply = s.reply := rfl
@[simp] theorem withChstat_faultLog (s : State) (v : Bits7) : (s.withChstat v).faultLog = s.faultLog := rfl

/-! `State.withMem`. -/

@[simp] theorem withMem_cfg (s : State) (m : Memory) : (s.withMem m).cfg = s.cfg := rfl
@[simp] theorem withMem_status (s : State) (m : Memory) : (s.withMem m).status = s.status := rfl
@[simp] theorem withMem_regD (s : State) (m : Memory) : (s.withMem m).regD = s.regD := rfl
@[simp] theorem withMem_regC (s : State) (m : Memory) : (s.withMem m).regC = s.regC := rfl
@[simp] theorem withMem_regS (s : State) (m : Memory) : (s.withMem m).regS = s.regS := rfl
@[simp] theorem withMem_regP (s : State) (m : Memory) : (s.withMem m).regP = s.regP := rfl
@[simp] theorem withMem_regQ (s : State) (m : Memory) : (s.withMem m).regQ = s.regQ := rfl
@[simp] theorem withMem_regCC (s : State) (m : Memory) : (s.withMem m).regCC = s.regCC := rfl
@[simp] theorem withMem_regN (s : State) (m : Memory) : (s.withMem m).regN = s.regN := rfl
@[simp] theorem withMem_chstat (s : State) (m : Memory) : (s.withMem m).chstat = s.chstat := rfl
@[simp] theorem withMem_errcmd (s : State) (m : Memory) : (s.withMem m).errcmd = s.errcmd := rfl
@[simp] theorem withMem_mem (s : State) (m : Memory) : (s.withMem m).mem = m := rfl
@[simp] theorem withMem_bus (s : State) (m : Memory) : (s.withMem m).bus = s.bus := rfl
@[simp] theorem withMem_reply (s : State) (m : Memory) : (s.withMem m).reply = s.reply := rfl
@[simp] theorem withMem_faultLog (s : State) (m : Memory) : (s.withMem m).faultLog = s.faultLog := rfl

/-! `State.markPresent`. -/

@[simp] theorem markPresent_cfg (s : State) (c : Fin 7) : (s.markPresent c).cfg = s.cfg := rfl
@[simp] theorem markPresent_status (s : State) (c : Fin 7) : (s.markPresent c).status = s.status := rfl
@[simp] theorem markPresent_regD (s : State) (c : Fin 7) : (s.markPresent c).regD = s.regD := rfl
@[simp] theorem markPresent_regC (s : State) (c : Fin 7) : (s.markPresent c).regC = s.regC := rfl
@[simp] theorem markPresent_regS (s : State) (c : Fin 7) : (s.markPresent c).regS = s.regS := rfl
@[simp] theorem markPresent_regP (s : State) (c : Fin 7) : (s.markPresent c).regP = s.regP := rfl
@[simp] theorem markPresent_regQ (s : State) (c : Fin 7) : (s.markPresent c).regQ = s.regQ := rfl
@[simp] theorem markPresent_regCC (s : State) (c : Fin 7) : (s.markPresent c).regCC = s.regCC := rfl
@[simp] theorem markPresent_regN (s : State) (c : Fin 7) : (s.markPresent c).regN = s.regN := rfl
@[simp] theorem markPresent_chstat (s : State) (c : Fin 7) : (s.markPresent c).chstat = s.chstat ||| channelBit c := rfl
@[simp] theorem markPresent_errcmd (s : State) (c : Fin 7) : (s.markPresent c).errcmd = s.errcmd := rfl
@[simp] theorem markPresent_mem (s : State) (c : Fin 7) : (s.markPresent c).mem = s.mem := rfl
@[simp] theorem markPresent_bus (s : State) (c : Fin 7) : (s.markPresent c).bus = s.bus := rfl
@[simp] theorem markPresent_reply (s : State) (c : Fin 7) : (s.markPresent c).reply = s.reply := rfl
@[simp] theorem markPresent_faultLog (s : State) (c : Fin 7) : (s.markPresent c).faultLog = s.faultLog := rfl

/-! `State.withDecodeFlags`. -/

@[simp] theorem withDecodeFlags_cfg (s : State) (x y z : Bool) : (s.withDecodeFlags x y z).cfg = s.cfg := rfl
@[simp] theorem withDecodeFlags_status (s : State) (x y z : Bool) : (s.withDecodeFlags x y z).status = s.status.withDecodeFlags x y z := rfl
@[simp] theorem withDecodeFlags_regD (s : State) (x y z : Bool) : (s.withDecodeFlags x y z).regD = s.regD := rfl
@[simp] theorem withDecodeFlags_regC (s : State) (x y z : Bool) : (s.withDecodeFlags x y z).regC = s.regC := rfl
@[simp] theorem withDecodeFlags_regS (s : State) (x y z : Bool) : (s.withDecodeFlags x y z).regS = s.regS := rfl
@[simp] theorem withDecodeFlags_regP (s : State) (x y z : Bool) : (s.withDecodeFlags x y z).regP = s.regP := rfl
@[simp] theorem withDecodeFlags_regQ (s : State) (x y z : Bool) : (s.withDecodeFlags x y z).regQ = s.regQ := rfl
@[simp] theorem withDecodeFlags_regCC (s : State) (x y z : Bool) : (s.withDecodeFlags x y z).regCC = s.regCC := rfl
@[simp] theorem withDecodeFlags_regN (s : State) (x y z : Bool) : (s.withDecodeFlags x y z).regN = s.regN := rfl
@[simp] theorem withDecodeFlags_chstat (s : State) (x y z : Bool) : (s.withDecodeFlags x y z).chstat = s.chstat := rfl
@[simp] theorem withDecodeFlags_errcmd (s : State) (x y z : Bool) : (s.withDecodeFlags x y z).errcmd = s.errcmd := rfl
@[simp] theorem withDecodeFlags_mem (s : State) (x y z : Bool) : (s.withDecodeFlags x y z).mem = s.mem := rfl
@[simp] theorem withDecodeFlags_bus (s : State) (x y z : Bool) : (s.withDecodeFlags x y z).bus = s.bus := rfl
@[simp] theorem withDecodeFlags_reply (s : State) (x y z : Bool) : (s.withDecodeFlags x y z).reply = s.reply := rfl
@[simp] theorem withDecodeFlags_faultLog (s : State) (x y z : Bool) : (s.withDecodeFlags x y z).faultLog = s.faultLog := rfl

/-! `State.raise`. -/

@[simp] theorem raise_cfg (s : State) (e : ErrCode) (w : Word) : (s.raise e w).cfg = s.cfg := rfl
@[simp] theorem raise_status (s : State) (e : ErrCode) (w : Word) : (s.raise e w).status = { s.status with err := e.code } := rfl
@[simp] theorem raise_regD (s : State) (e : ErrCode) (w : Word) : (s.raise e w).regD = s.regD := rfl
@[simp] theorem raise_regC (s : State) (e : ErrCode) (w : Word) : (s.raise e w).regC = s.regC := rfl
@[simp] theorem raise_regS (s : State) (e : ErrCode) (w : Word) : (s.raise e w).regS = s.regS := rfl
@[simp] theorem raise_regP (s : State) (e : ErrCode) (w : Word) : (s.raise e w).regP = s.regP := rfl
@[simp] theorem raise_regQ (s : State) (e : ErrCode) (w : Word) : (s.raise e w).regQ = s.regQ := rfl
@[simp] theorem raise_regCC (s : State) (e : ErrCode) (w : Word) : (s.raise e w).regCC = s.regCC := rfl
@[simp] theorem raise_regN (s : State) (e : ErrCode) (w : Word) : (s.raise e w).regN = s.regN := rfl
@[simp] theorem raise_chstat (s : State) (e : ErrCode) (w : Word) : (s.raise e w).chstat = s.chstat := rfl
@[simp] theorem raise_errcmd (s : State) (e : ErrCode) (w : Word) : (s.raise e w).errcmd = w := rfl
@[simp] theorem raise_mem (s : State) (e : ErrCode) (w : Word) : (s.raise e w).mem = s.mem := rfl
@[simp] theorem raise_bus (s : State) (e : ErrCode) (w : Word) : (s.raise e w).bus = s.bus := rfl
@[simp] theorem raise_reply (s : State) (e : ErrCode) (w : Word) : (s.raise e w).reply = s.reply := rfl
@[simp] theorem raise_faultLog (s : State) (e : ErrCode) (w : Word) : (s.raise e w).faultLog = ⟨e, w⟩ :: s.faultLog := rfl

/-! `State.acknowledge`. -/

@[simp] theorem acknowledge_cfg (s : State) : (s.acknowledge).cfg = s.cfg := rfl
@[simp] theorem acknowledge_status (s : State) : (s.acknowledge).status = { s.status with err := 0 } := rfl
@[simp] theorem acknowledge_regD (s : State) : (s.acknowledge).regD = s.regD := rfl
@[simp] theorem acknowledge_regC (s : State) : (s.acknowledge).regC = s.regC := rfl
@[simp] theorem acknowledge_regS (s : State) : (s.acknowledge).regS = s.regS := rfl
@[simp] theorem acknowledge_regP (s : State) : (s.acknowledge).regP = s.regP := rfl
@[simp] theorem acknowledge_regQ (s : State) : (s.acknowledge).regQ = s.regQ := rfl
@[simp] theorem acknowledge_regCC (s : State) : (s.acknowledge).regCC = s.regCC := rfl
@[simp] theorem acknowledge_regN (s : State) : (s.acknowledge).regN = s.regN := rfl
@[simp] theorem acknowledge_chstat (s : State) : (s.acknowledge).chstat = s.chstat := rfl
@[simp] theorem acknowledge_errcmd (s : State) : (s.acknowledge).errcmd = 0 := rfl
@[simp] theorem acknowledge_mem (s : State) : (s.acknowledge).mem = s.mem := rfl
@[simp] theorem acknowledge_bus (s : State) : (s.acknowledge).bus = s.bus := rfl
@[simp] theorem acknowledge_reply (s : State) : (s.acknowledge).reply = s.reply := rfl
@[simp] theorem acknowledge_faultLog (s : State) : (s.acknowledge).faultLog = s.faultLog := rfl

/-! `State.answer`. -/

@[simp] theorem answer_cfg (s : State) (r : BusReply) : (s.answer r).cfg = s.cfg := rfl
@[simp] theorem answer_status (s : State) (r : BusReply) : (s.answer r).status = s.status := rfl
@[simp] theorem answer_regD (s : State) (r : BusReply) : (s.answer r).regD = s.regD := rfl
@[simp] theorem answer_regC (s : State) (r : BusReply) : (s.answer r).regC = s.regC := rfl
@[simp] theorem answer_regS (s : State) (r : BusReply) : (s.answer r).regS = s.regS := rfl
@[simp] theorem answer_regP (s : State) (r : BusReply) : (s.answer r).regP = s.regP := rfl
@[simp] theorem answer_regQ (s : State) (r : BusReply) : (s.answer r).regQ = s.regQ := rfl
@[simp] theorem answer_regCC (s : State) (r : BusReply) : (s.answer r).regCC = s.regCC := rfl
@[simp] theorem answer_regN (s : State) (r : BusReply) : (s.answer r).regN = s.regN := rfl
@[simp] theorem answer_chstat (s : State) (r : BusReply) : (s.answer r).chstat = s.chstat := rfl
@[simp] theorem answer_errcmd (s : State) (r : BusReply) : (s.answer r).errcmd = s.errcmd := rfl
@[simp] theorem answer_mem (s : State) (r : BusReply) : (s.answer r).mem = s.mem := rfl
@[simp] theorem answer_bus (s : State) (r : BusReply) : (s.answer r).bus = s.bus := rfl
@[simp] theorem answer_reply (s : State) (r : BusReply) : (s.answer r).reply = r := rfl
@[simp] theorem answer_faultLog (s : State) (r : BusReply) : (s.answer r).faultLog = s.faultLog := rfl

/-! `State.issueNext`. -/

@[simp] theorem issueNext_cfg (s : State) (w : Word) : (s.issueNext w).cfg = s.cfg := rfl
@[simp] theorem issueNext_status (s : State) (w : Word) : (s.issueNext w).status = s.status := rfl
@[simp] theorem issueNext_regD (s : State) (w : Word) : (s.issueNext w).regD = s.regD := rfl
@[simp] theorem issueNext_regC (s : State) (w : Word) : (s.issueNext w).regC = s.regC := rfl
@[simp] theorem issueNext_regS (s : State) (w : Word) : (s.issueNext w).regS = s.regS := rfl
@[simp] theorem issueNext_regP (s : State) (w : Word) : (s.issueNext w).regP = s.regP := rfl
@[simp] theorem issueNext_regQ (s : State) (w : Word) : (s.issueNext w).regQ = s.regQ := rfl
@[simp] theorem issueNext_regCC (s : State) (w : Word) : (s.issueNext w).regCC = s.regCC := rfl
@[simp] theorem issueNext_regN (s : State) (w : Word) : (s.issueNext w).regN = s.regN := rfl
@[simp] theorem issueNext_chstat (s : State) (w : Word) : (s.issueNext w).chstat = s.chstat := rfl
@[simp] theorem issueNext_errcmd (s : State) (w : Word) : (s.issueNext w).errcmd = s.errcmd := rfl
@[simp] theorem issueNext_mem (s : State) (w : Word) : (s.issueNext w).mem = s.mem := rfl
@[simp] theorem issueNext_bus (s : State) (w : Word) : (s.issueNext w).bus = issueEvent s.cfg 0 w :: s.bus := rfl
@[simp] theorem issueNext_reply (s : State) (w : Word) : (s.issueNext w).reply = s.reply := rfl
@[simp] theorem issueNext_faultLog (s : State) (w : Word) : (s.issueNext w).faultLog = s.faultLog := rfl

/-! `Status.withDecodeFlags`. -/

@[simp] theorem statusFlags_err (st : Status) (x y z : Bool) : (st.withDecodeFlags x y z).err = st.err := rfl
@[simp] theorem statusFlags_corr (st : Status) (x y z : Bool) : (st.withDecodeFlags x y z).corr = x := rfl
@[simp] theorem statusFlags_uncorr (st : Status) (x y z : Bool) : (st.withDecodeFlags x y z).uncorr = y := rfl
@[simp] theorem statusFlags_noMatch (st : Status) (x y z : Bool) : (st.withDecodeFlags x y z).noMatch = z := rfl

/-! The state after reset (R42). -/

@[simp] theorem resetWith_cfg (cfg : Config) : (State.resetWith cfg).cfg = cfg := rfl
@[simp] theorem resetWith_status (cfg : Config) : (State.resetWith cfg).status = ⟨0, false, false, false⟩ := rfl
@[simp] theorem resetWith_regD (cfg : Config) : (State.resetWith cfg).regD = 0 := rfl
@[simp] theorem resetWith_regC (cfg : Config) : (State.resetWith cfg).regC = ⟨0, 0⟩ := rfl
@[simp] theorem resetWith_regS (cfg : Config) : (State.resetWith cfg).regS = 0 := rfl
@[simp] theorem resetWith_regP (cfg : Config) : (State.resetWith cfg).regP = 0 := rfl
@[simp] theorem resetWith_regQ (cfg : Config) : (State.resetWith cfg).regQ = 0 := rfl
@[simp] theorem resetWith_regCC (cfg : Config) : (State.resetWith cfg).regCC = 0 := rfl
@[simp] theorem resetWith_regN (cfg : Config) : (State.resetWith cfg).regN = 0 := rfl
@[simp] theorem resetWith_chstat (cfg : Config) : (State.resetWith cfg).chstat = 0 := rfl
@[simp] theorem resetWith_errcmd (cfg : Config) : (State.resetWith cfg).errcmd = 0 := rfl
@[simp] theorem resetWith_mem (cfg : Config) : (State.resetWith cfg).mem = Memory.cleared := rfl
@[simp] theorem resetWith_bus (cfg : Config) : (State.resetWith cfg).bus = [] := rfl
@[simp] theorem resetWith_reply (cfg : Config) : (State.resetWith cfg).reply = .idle := rfl
@[simp] theorem resetWith_faultLog (cfg : Config) : (State.resetWith cfg).faultLog = [] := rfl

@[simp] theorem cleared_dibAt (k : Nat) : Memory.cleared.dibAt k = 0 := rfl
@[simp] theorem cleared_cwbAt (k : Nat) : Memory.cleared.cwbAt k = ⟨0, 0⟩ := rfl
@[simp] theorem cleared_dobAt (k : Nat) : Memory.cleared.dobAt k = ⟨0, false, false, false, false⟩ := rfl
@[simp] theorem cleared_chvAt (c : Fin 7) (k : Nat) : Memory.cleared.chvAt c k = false := by
  simp [Memory.chvAt, Memory.cleared]
@[simp] theorem cleared_cheAt (c : Fin 7) (k : Nat) : Memory.cleared.cheAt c k = false := by
  simp [Memory.cheAt, Memory.cleared]

end Sys2Proof.Machine
end

