-- ==== Sys2Proof/Laws/Step.lean ====
section
/-! SUPPORT. What each piece of a step can do: a check, a channel operand, a host access, a command word, and the step
itself (the inversion lemma every proof about steps cites). -/

namespace Sys2Proof.Machine

/-! ## Checks -/

@[simp] theorem check_true (e : ErrCode) (i : Instr) (s : State) (go : Result) :
    check true e i s go = .next (s.raise e (encode i)) := rfl
@[simp] theorem check_false (e : ErrCode) (i : Instr) (s : State) (go : Result) : check false e i s go = go := rfl

/-- A check that answers a next state raised its fault or went on. -/
theorem check_eq_next {bad : Bool} {e : ErrCode} {i : Instr} {s t : State} {go : Result}
    (h : check bad e i s go = .next t) :
    (bad = true ∧ t = s.raise e (encode i)) ∨ (bad = false ∧ go = .next t) := by
  cases bad with
  | true => exact .inl ⟨rfl, by simpa using h.symm⟩
  | false => exact .inr ⟨rfl, h⟩

theorem channel?_of_lt {c : Nat} (h : c < 7) : channel? c = some ⟨c, h⟩ := by simp [channel?, h]
theorem channel?_of_ge {c : Nat} (h : 7 ≤ c) : channel? c = none := by simp [channel?, Nat.not_lt.mpr h]

@[simp] theorem withChannel_of_lt {c : Nat} (h : c < 7) (i : Instr) (s : State) (go : Fin 7 → Result) :
    withChannel c i s go = go ⟨c, h⟩ := by simp [withChannel, channel?_of_lt h]
@[simp] theorem withChannel_of_ge {c : Nat} (h : 7 ≤ c) (i : Instr) (s : State) (go : Fin 7 → Result) :
    withChannel c i s go = .next (s.raise .illegalOperand (encode i)) := by simp [withChannel, channel?_of_ge h]

/-- A channel operand that answers a next state named no channel or went on with one. -/
theorem withChannel_eq_next {c : Nat} {i : Instr} {s t : State} {go : Fin 7 → Result}
    (h : withChannel c i s go = .next t) :
    (7 ≤ c ∧ t = s.raise .illegalOperand (encode i)) ∨ (∃ hc : c < 7, go ⟨c, hc⟩ = .next t) := by
  by_cases hc : c < 7
  · exact .inr ⟨hc, by simpa [hc] using h⟩
  · rw [withChannel_of_ge (Nat.not_lt.mp hc)] at h
    exact .inl ⟨Nat.not_lt.mp hc, by simpa using h.symm⟩

/-! ## Host accesses -/

/-- An address in the window is the base plus its offset. -/
@[simp] theorem windowOffset_base (cfg : Config) (off : Offset) :
    windowOffset cfg (cfg.base + off.toNat) = some off := by
  have := off.isLt
  simp [windowOffset, show off.toNat < 65536 by omega]

/-- An aligned 32-bit access is performed at its offset. -/
theorem hostAccess_aligned (agent : Nat) (s : State) (off : Offset) (h : off.toNat % 4 = 0) (go : Offset → Result) :
    hostAccess agent (s.cfg.base + off.toNat) 4 s go = go off := by
  simp [hostAccess, accessFault, h]

/-- An access that answers a next state was an aligned 32-bit access in the window. -/
theorem hostAccess_eq_next {agent addr size : Nat} {s t : State} {go : Offset → Result}
    (h : hostAccess agent addr size s go = .next t) :
    ∃ off, windowOffset s.cfg addr = some off ∧ size = 4 ∧ off.toNat % 4 = 0 ∧ go off = .next t := by
  unfold hostAccess at h
  cases hw : windowOffset s.cfg addr with
  | none => simp [hw] at h
  | some off =>
    simp only [hw] at h
    by_cases h4 : size = 4
    · by_cases ha : off.toNat % 4 = 0
      · exact ⟨off, rfl, h4, ha, by simpa [accessFault, h4, ha] using h⟩
      · simp [accessFault, h4, ha] at h
    · simp [accessFault, h4] at h

@[simp] theorem memWrite_cmd (s : State) (v : Word) : s.memWrite 0#16 v = perform v s := rfl

/-- A write anywhere but to `CMD` stores and nothing else. -/
theorem memWrite_store {s : State} {off : Offset} (v : Word) (h : locate off ≠ .cmd) :
    s.memWrite off v = .next (s.writeAt v (locate off)) := by
  unfold State.memWrite
  split
  · contradiction
  · rfl

/-! ## Command words (R214) -/

theorem perform_pending {w : Word} {s : State} (h : s.status.err ≠ 0) :
    perform w s = if w = 0x0F000000#32 then .next s.acknowledge else .next s := by
  have hp : s.errPending = true := by simpa [State.errPending] using h
  simp [perform, hp]

theorem perform_command {w : Word} {s : State} {i : Instr} (h : s.status.err = 0) (hd : decode w = .command i) :
    perform w s = exec i s := by
  simp [perform, State.errPending, h, hd]

theorem perform_illegal {w : Word} {s : State} {why : IllegalWord} (h : s.status.err = 0)
    (hd : decode w = .illegal why) : perform w s = .next (s.raise .illegalCommand w) := by
  simp [perform, State.errPending, h, hd]

/-- What the performance of a word can do. -/
theorem perform_cases (w : Word) (s : State) :
    (s.status.err ≠ 0 ∧ w = 0x0F000000#32 ∧ perform w s = .next s.acknowledge) ∨
    (s.status.err ≠ 0 ∧ w ≠ 0x0F000000#32 ∧ perform w s = .next s) ∨
    (s.status.err = 0 ∧ (∃ why, decode w = .illegal why) ∧ perform w s = .next (s.raise .illegalCommand w)) ∨
    (s.status.err = 0 ∧ ∃ i, decode w = .command i ∧ perform w s = exec i s) := by
  by_cases h : s.status.err = 0
  · cases hd : decode w with
    | illegal why => exact .inr (.inr (.inl ⟨h, ⟨why, rfl⟩, perform_illegal h hd⟩))
    | command i => exact .inr (.inr (.inr ⟨h, i, rfl, perform_command h hd⟩))
  · by_cases hw : w = 0x0F000000#32
    · exact .inl ⟨h, hw, by rw [perform_pending h, if_pos hw]⟩
    · exact .inr (.inl ⟨h, hw, by rw [perform_pending h, if_neg hw]⟩)

/-! ## The step -/

/-- What a location reads as does not depend on the bus. -/
@[simp] theorem memRead_bus (s : State) (rest : List BusEvent) (off : Offset) :
    ({ s with bus := rest } : State).memRead off = s.memRead off := by
  unfold State.memRead
  cases locate off <;> rfl


theorem step_quiet {s : State} (h : s.bus = []) : step s = .next s := by simp [step, serveBus, h]

theorem step_event {s : State} {ev : BusEvent} {rest : List BusEvent} (h : s.bus = ev :: rest) :
    step s = serve ev { s with bus := rest } := by simp [step, serveBus, h]

/-- What a step that answers a next state did: nothing was pending; a read answered; a write issued a command word; a
write stored; or reset. `u` is the state with the event taken off the bus. -/
theorem step_cases {s t : State} (h : step s = .next t) :
    (s.bus = [] ∧ t = s) ∨
    ∃ ev rest, s.bus = ev :: rest ∧
      ((∃ agent addr off, ev = .read agent addr 4 ∧ windowOffset s.cfg addr = some off ∧ off.toNat % 4 = 0 ∧
          t = { s with bus := rest, reply := .data agent (s.memRead off) }) ∨
       (∃ agent addr off w, ev = .write agent addr 4 w ∧ windowOffset s.cfg addr = some off ∧ off.toNat % 4 = 0 ∧
          locate off = .cmd ∧ perform w { s with bus := rest, reply := .written agent } = .next t) ∨
       (∃ agent addr off w, ev = .write agent addr 4 w ∧ windowOffset s.cfg addr = some off ∧ off.toNat % 4 = 0 ∧
          locate off ≠ .cmd ∧ t = ({ s with bus := rest, reply := .written agent }).writeAt w (locate off)) ∨
       (ev = .reset ∧ t = ({ s with bus := rest }).applyReset)) := by
  cases hb : s.bus with
  | nil => rw [step_quiet hb] at h; exact .inl ⟨rfl, by simpa using h.symm⟩
  | cons ev rest =>
    rw [step_event hb] at h
    refine .inr ⟨ev, rest, rfl, ?_⟩
    cases ev with
    | read agent addr size =>
      obtain ⟨off, hw, rfl, ha, h⟩ := hostAccess_eq_next h
      exact .inl ⟨agent, addr, off, rfl, hw, ha, by simpa [State.answer] using h.symm⟩
    | write agent addr size w =>
      obtain ⟨off, hw, rfl, ha, h⟩ := hostAccess_eq_next h
      by_cases hl : locate off = .cmd
      · refine .inr (.inl ⟨agent, addr, off, w, rfl, hw, ha, hl, ?_⟩)
        simpa [State.memWrite, hl, State.answer] using h
      · refine .inr (.inr (.inl ⟨agent, addr, off, w, rfl, hw, ha, hl, ?_⟩))
        rw [memWrite_store w hl] at h
        simpa [State.answer] using h.symm
    | reset => exact .inr (.inr (.inr ⟨rfl, by simpa [serve] using h.symm⟩))

theorem registerMap_cmd {q : Nat} (h : registerMap.getD q .reserved = .cmd) : q = 0 := by
  match q with
  | 0 => rfl
  | 1 | 2 | 3 | 4 | 5 | 6 | 7 | 8 | 9 | 10 | 11 => exact absurd h (by decide)
  | n + 12 => exact absurd (show Location.reserved = .cmd from h) (by simp)

theorem channelWordAt_ne_cmd {region a : Nat} {place : Fin 7 → Nat → Location} (hp : ∀ c w, place c w ≠ .cmd) :
    channelWordAt region a place ≠ .cmd := by
  unfold channelWordAt
  split
  · simp
  · exact hp _ _

/-- Of the aligned offsets, `CMD` stands at offset 0 alone (R51). -/
theorem locate_eq_cmd {off : Offset} (ha : off.toNat % 4 = 0) (h : locate off = .cmd) : off = 0 := by
  apply BitVec.eq_of_toNat_eq
  unfold locate at h
  dsimp only at h
  split at h
  · have := registerMap_cmd h
    show off.toNat = 0
    omega
  · exfalso
    revert h
    repeat' split
    all_goals first
      | exact channelWordAt_ne_cmd (by simp)
      | simp

end Sys2Proof.Machine
end

