-- ==== Sys2Proof/Tests/Slice0.lean ====
section
/-! SUPPORT. The model's own tests: ill-formed commands are refused, the spec's words decode, one step of each command
gives what the vectors of 95_test_vectors.md give, and every statement with a hypothesis has a witness for each of its
clauses. Expected values are the spec's, not the model's. -/

namespace Sys2Proof.Tests

open Sys2Proof.Machine Sys2Proof.Claims

/-- The state a result leaves, if it is a next state. -/
def after : Result → Option State
  | .next t => some t
  | .fault _ => none
  | .refused _ => none

/-- The fault a result stops on. -/
def faultOf : Result → Option Fault
  | .next _ => none
  | .fault f => some f
  | .refused _ => none

/-- A small H74CE of two batch positions, right after reset. -/
def small : State := State.resetWith { nmax := 2, base := 0x100 }

/-- `small` with a batch of two codewords in `CWB`, and its channels as program 5's transmit side leaves them. -/
def batch2 : State :=
  { small with
    regN := 2
    mem := { small.mem with dib := [(0, 0xA), (1, 1)], cwb := [(0, ⟨0x52, 0⟩), (1, ⟨0x07, 0⟩)] } }

/-- `batch2` with all channels present, channel 3 lost and channel 1 holding `CHV[1][0] = 1`. -/
def lost3 : State :=
  { batch2 with
    chstat := 0x7F
    mem := (((batch2.mem.setChv 1 0 true).setChv 3 1 true).setChe 3 0 true).setChe 3 1 true }

/-- A state with a pending `INVALID_LENGTH` of `ENC 5` (95_test_vectors.md §2.8). -/
def pending : State :=
  { small with status := { small.status with err := 1 }, errcmd := 0x10050000, faultLog := [⟨.invalidLength, 0x10050000⟩] }

/-! ## WellFormed (R70, R79) -/

theorem test_wf_enc : (Instr.enc 255).wf = true ∧ (Instr.enc 256).wf = false := by decide
theorem test_wf_dec : (Instr.dec 255).wf = true ∧ (Instr.dec 256).wf = false := by decide
theorem test_wf_ilv1 : (Instr.ilv1 65535).wf = true ∧ (Instr.ilv1 65536).wf = false := by decide
theorem test_wf_dil : (Instr.dil 65535).wf = true ∧ (Instr.dil 65536).wf = false := by decide
theorem test_wf_chrdy : (Instr.chrdy 65535).wf = true ∧ (Instr.chrdy 65536).wf = false := by decide
theorem test_wf_chlost : (Instr.chlost 65535).wf = true ∧ (Instr.chlost 65536).wf = false := by decide

/-! ## Decoding: words written out from R70 (`OPC` 31:24, `LEN` 23:16, `ARG` 15:0) and R75 -/

theorem test_decode_nop : decodeTableWord 32 0b00000000_00000000_0000000000000000 = some .nop := by decide
theorem test_decode_mvg : decodeTableWord 32 0b00000001_00000000_0000000000000000 = some .mvg := by decide
theorem test_decode_mvh : decodeTableWord 32 0b00000010_00000000_0000000000000000 = some .mvh := by decide
theorem test_decode_clrerr : decodeTableWord 32 0b00001111_00000000_0000000000000000 = some .clrerr := by decide
theorem test_decode_enc : decodeTableWord 32 0b00010000_00000100_0000000000000000 = some (.enc 4) := by decide
theorem test_decode_dec : decodeTableWord 32 0b00010001_10000001_0000000000000000 = some (.dec 129) := by decide
theorem test_decode_edec : decodeTableWord 32 0b00010010_00000000_0000000000000000 = some .edec := by decide
theorem test_decode_ilv : decodeTableWord 32 0b00100000_00000000_0000000000000000 = some .ilv := by decide
theorem test_decode_ilv1 : decodeTableWord 32 0b00100001_00000000_1000000000000001 = some (.ilv1 32769) := by decide
theorem test_decode_dil : decodeTableWord 32 0b00100010_00000000_0000000100000000 = some (.dil 256) := by decide
theorem test_decode_dilb : decodeTableWord 32 0b00100011_00000000_0000000000000000 = some .dilb := by decide
theorem test_decode_chrdy : decodeTableWord 32 0b00110000_00000000_0000000000000110 = some (.chrdy 6) := by decide
theorem test_decode_chlost : decodeTableWord 32 0b00110001_00000000_0000000000000111 = some (.chlost 7) := by decide
theorem test_decode_bclr : decodeTableWord 32 0b00110010_00000000_0000000000000000 = some .bclr := by decide
theorem test_decode_encb : decodeTableWord 32 0b01000000_00000000_0000000000000000 = some .encb := by decide
theorem test_decode_decb : decodeTableWord 32 0b01000001_00000000_0000000000000000 = some .decb := by decide

/-- The illegal words of 95_test_vectors.md §2.8, each rejected by name. -/
theorem test_illegal_words :
    decode 0x13000000 = .illegal (.unknownOpc 0x13) ∧ decode 0x12000001 = .illegal (.nonzeroField 0x12) ∧
    decode 0x00010000 = .illegal (.nonzeroField 0x00) ∧ decode 0x0F000001 = .illegal (.nonzeroField 0x0F) ∧
    decode 0x21010000 = .illegal (.nonzeroField 0x21) ∧ decodeTableWord 32 0xFFFFFFFF = none := by decide

/-- The two words of `ILV1 2` and `CHLOST 3` in 95_test_vectors.md, encoded. -/
theorem test_encode : encode (.ilv1 2) = 0x21000002 ∧ encode (.chlost 3) = 0x31000003 ∧ encode (.dec 7) = 0x11070000 := by
  decide

/-! ## The assembler (R79), on lines of 95_test_vectors.md -/

theorem test_assemble_pseudo : assemble "ENC" = some (.command 0x10040000) ∧ assemble "DEC" = some (.command 0x11070000) := by
  decide +kernel
theorem test_assemble_commands :
    assemble "DEC 5" = some (.command 0x11050000) ∧ assemble "CHLOST 6" = some (.command 0x31000006) ∧
    assemble "DILB" = some (.command 0x23000000) ∧ assemble "ENC 256" = none ∧ assemble "ILV1 65536" = none ∧
    assemble "ILV 1" = none ∧ assemble "DIL" = none := by decide +kernel
theorem test_assemble_accesses :
    assemble "WR N, 0x00000021" = some (.wr 0x0020 0x21) ∧ assemble "WR CWB[1], 3" = some (.wr 0x2004 3) ∧
    assemble "RD CHV[6].w1 -> 0x00000001" = some (.rd 0x4604 1) ∧ assemble "RD 0xFFFC -> 0" = some (.rd 0xFFFC 0) := by
  decide +kernel

/-! ## One step of each command -/

/-- A word put on the bus after reset runs as the next step: `CHRDY 5` (95_test_vectors.md §2.7). -/
theorem test_step_runs : (after (step (State.reset.withFetchWord 32 0x30000005))).map (·.chstat) = some 0x20 := by decide
/-- An illegal word faults in the step that performs it (95_test_vectors.md §2.8). -/
theorem test_step_illegal : (after (step (State.reset.withFetchWord 32 0x13000000))).map
    (fun t => (t.status.word, t.errcmd)) = some (2, 0x13000000) := by decide

theorem test_nop : (after (exec .nop pending)) = some pending := by decide
/-- §2.1, row 0xA; erasures are cleared. -/
theorem test_mvg : (after (exec .mvg { small with regD := 0xA, regC := ⟨0, 0x7F⟩ })).map (·.regC) = some ⟨0x52, 0⟩ := by decide
/-- §2.2, rows `0x52, 0x0A` and `0x40, 0`. -/
theorem test_mvh : (after (exec .mvh { small with regC := ⟨0x52, 0x0A⟩ })).map (·.regS) = some 2 ∧
    (after (exec .mvh { small with regC := ⟨0x40, 0⟩ })).map (·.regS) = some 7 := by decide
/-- §2.8: `CLRERR` clears `ERR` and `ERRCMD`; the ghost record stays. -/
theorem test_clrerr : (after (exec .clrerr pending)).map (fun t => (t.status.word, t.errcmd, t.faultLog.length)) =
    some (0, 0, 1) := by decide
/-- Scenario A. -/
theorem test_enc : (after (exec (.enc 4) { small with regD := 0xA })).map (fun t => t.regC.word) = some 0x52 := by decide
/-- §2.8, `ENC 3`: the codeword register keeps its value. -/
theorem test_enc_length : (after (exec (.enc 3) { small with regD := 3 })).map
    (fun t => (t.status.word, t.errcmd, t.regC.word)) = some (1, 0x10030000, 0) := by decide
/-- Scenario B. -/
theorem test_dec : (after (exec (.dec 7) { small with regC := ⟨0x56, 0⟩ })).map
    (fun t => (t.regS, t.regP, t.regCC, t.regQ, t.status.word)) = some (3, 3, 0x52, 0xA, 0x100) := by decide
/-- §2.8, `DEC 5` and `DEC 7` with `CE = 0x01`: the length is checked first. -/
theorem test_dec_faults :
    (after (exec (.dec 5) { small with regC := ⟨0x53, 1⟩ })).map (fun t => (t.status.word, t.errcmd)) = some (1, 0x11050000) ∧
    (after (exec (.dec 7) { small with regC := ⟨0x53, 1⟩ })).map (fun t => (t.status.word, t.errcmd)) = some (4, 0x11070000) := by
  decide
/-- Scenario C. -/
theorem test_edec : (after (exec .edec { small with regC := ⟨0x52, 0x0A⟩ })).map
    (fun t => (t.regS, t.regP, t.regCC, t.regQ, t.status.word)) = some (2, 0, 0x52, 0xA, 0) := by decide +kernel
/-- §2.6, the rows with an error at bit 2 and erased {0}, and with three erasures. -/
theorem test_edec_corners :
    (after (exec .edec { small with regC := ⟨0x04, 0x01⟩ })).map (fun t => (t.regS, t.regCC, t.regQ, t.status.word)) =
      some (3, 0x04, 1, 0x400) ∧
    (after (exec .edec { small with regC := ⟨0x52, 0x0B⟩ })).map (fun t => (t.regS, t.regCC, t.regQ, t.status.word)) =
      some (0, 0, 0, 0x200) := by decide +kernel
/-- Program 5's blocks `enc(0xA) = 0x52` and `enc(1) = 0x07`, transposed by hand. -/
theorem test_ilv : (after (exec .ilv batch2)).map (fun t =>
    (t.chstat, (List.range 7).map (fun c => packChannel 2 (t.mem.chvAt (Fin.ofNat 7 c)) 0))) =
    some (0x7F, [2, 3, 2, 0, 1, 0, 1]) := by decide +kernel
/-- §2.7: `ILV1 1` of `C = 0x0A52`; `CHSTAT` keeps its value. -/
theorem test_ilv1 : (after (exec (.ilv1 1) { small with regN := 2, regC := ⟨0x52, 0x0A⟩ })).map (fun t =>
    (t.memRead 0x4100, t.memRead 0x4200, t.memRead 0x5300, t.memRead 0x5000, t.chstat)) = some (2, 0, 2, 0, 0) := by
  decide +kernel
/-- `C` of `lost3` at position 0: the value bit of channel 1 and the mark of channel 3. -/
theorem test_dil : (after (exec (.dil 0) lost3)).map (fun t => t.regC.word) = some 0x0802 := by decide +kernel
/-- §2.8, `DIL 5` with `N = 2` and no channel: the operand before the partial batch. -/
theorem test_dil_faults : (after (exec (.dil 5) { small with regN := 2 })).map (fun t => t.status.word) = some 3 ∧
    (after (exec (.dil 0) { small with regN := 1 })).map (fun t => t.status.word) = some 5 := by decide
theorem test_dilb : (after (exec .dilb lost3)).map (fun t => (t.memRead 0x2000, t.memRead 0x2004)) =
    some (0x0802, 0x0808) := by decide +kernel
theorem test_dilb_partial : (after (exec .dilb batch2)).map (fun t => (t.status.word, t.errcmd, t.mem)) =
    some (5, 0x23000000, batch2.mem) := by decide
/-- §2.8, `CHRDY 7`, and `CHRDY 3` with `N = 2000`. -/
theorem test_chrdy : (after (exec (.chrdy 7) small)).map (fun t => (t.status.word, t.chstat)) = some (3, 0) ∧
    (after (exec (.chrdy 3) { small with regN := 2000 })).map (fun t => (t.status.word, t.chstat)) = some (0, 8) := by decide
/-- `CHLOST 6` marks the positions of the batch, and only those, in channel 6. -/
theorem test_chlost : (after (exec (.chlost 6) { small with regN := 1 })).map (fun t =>
    (t.chstat, t.memRead 0x5600, t.memRead 0x5500)) = some (0x40, 1, 0) := by decide +kernel
/-- §2.8, `CHLOST 9` with `N = 2000`. -/
theorem test_chlost_faults : (after (exec (.chlost 9) { small with regN := 2000 })).map (fun t => (t.status.word, t.errcmd)) =
    some (3, 0x31000009) := by decide
/-- §2.7: `BCLR` clears `CHE` and `CHSTAT` but not `CHV`. -/
theorem test_bclr : (after (exec .bclr lost3)).map (fun t => (t.chstat, t.memRead 0x5300, t.memRead 0x4100, t.memRead 0x4300)) =
    some (0, 0, 1, 2) := by decide +kernel
/-- Program 5: `DIB = [0xA, 1]`. -/
theorem test_encb : (after (exec .encb { batch2 with mem := { batch2.mem with cwb := [] } })).map
    (fun t => (t.memRead 0x2000, t.memRead 0x2004)) = some (0x52, 0x07) := by decide +kernel
theorem test_encb_fault : (after (exec .encb { small with regN := 3 })).map (fun t => (t.status.word, t.errcmd)) =
    some (3, 0x40000000) := by decide
/-- Program 5's second `DECB`: `CWB = [0x0752, 0x0003]`. -/
theorem test_decb : (after (exec .decb { small with
      regN := 2, mem := { small.mem with cwb := [(0, ⟨0x52, 0x07⟩), (1, ⟨0x03, 0⟩)] } })).map
    (fun t => (t.memRead 0x3000, t.memRead 0x3004, t.status.word)) = some (0xA00, 0x101, 0x300) := by decide +kernel

/-! ## The host port (95_test_vectors.md §2.9) -/

theorem test_id : State.reset.memRead 0x2C = 0x13470400 := by decide
theorem test_write_masks : (after (small.memWrite 0x000C 0xFFFFFFFF)).map (fun t => t.memRead 0x000C) = some 0x7F7F ∧
    (after (small.memWrite 0x2000 0xFFFFFFFF)).map (fun t => t.memRead 0x2000) = some 0x7F7F ∧
    (after (small.memWrite 0x2008 0xFFFFFFFF)).map (fun t => t.memRead 0x2008) = some 0 := by decide
/-- Positions at or beyond `NMAX` are ignored (here `NMAX = 2`), and writing 0 gives the reset memory back. -/
theorem test_channel_word : (after (small.memWrite 0x5604 0xFFFFFFFF)) = some small ∧
    (after (small.memWrite 0x5600 0x80000003)).map (fun t => t.memRead 0x5600) = some 3 ∧
    (after (lost3.memWrite 0x5300 0)).map (fun t => t.mem.che) = some small.mem.che := by decide +kernel
/-- U10's examples: a 1-byte read of 0x004, a 32-bit write to 0x002. -/
theorem test_access_errors :
    faultOf (step { small with bus := [.read 1 0x104 1] }) = some (.accessError 1 (.width 1) 0) ∧
    faultOf (step { small with bus := [.write 0 0x102 4 9] }) = some (.accessError 0 (.misaligned 2) 0) ∧
    faultOf (step { small with bus := [.read 0 0xFC 4] }) = some (.outsideRegisterSpace 0 0xFC) ∧
    faultOf (step { small with bus := [.read 0 0x10100 4] }) = some (.outsideRegisterSpace 0 0x10100) := by decide
theorem test_read : (after (step { batch2 with bus := [.read 1 (0x100 + 0x1000) 4] })).map (·.reply) =
    some (.data 1 0xA) := by decide
theorem test_reset : after (step { batch2 with bus := [.reset] }) = some small := by decide
/-- A pending fault drops `ENC 4` and lets a register write through (§2.8). -/
theorem test_sticky : after (pending.memWrite 0 0x10040000) = some pending ∧
    (after (pending.memWrite 8 9)).map (fun t => (t.regD, t.status.word)) = some (9, 1) := by decide

/-! ## Witnesses: for every statement with a hypothesis, inputs that meet the hypotheses of each clause -/

theorem witness_DecodeOfEncode : (Instr.dec 255).WellFormed ∧ (Instr.ilv1 65535).WellFormed ∧ (Instr.nop).WellFormed := by decide
theorem witness_EncodeOfDecode : decode 0x11FF0000 = .command (.dec 255) ∧ decode 0x3100FFFF = .command (.chlost 65535) := by decide
theorem witness_IllegalWordsFault :
    (∃ why, decode 0x12000001 = .illegal why) ∧ legalFields (opcField 0x12000001) (lenField 0x12000001) (argField 0x12000001) = false ∧
    small.status.err = 0 := ⟨⟨_, rfl⟩, by decide, by decide⟩
theorem witness_AtMostOneRowMatches : (∃ r ∈ opTable, (0x10FF0000#32) &&& r.mask = r.pattern) ∧
    ∀ r ∈ opTable, (0x13000000#32) &&& r.mask ≠ r.pattern := ⟨⟨opTable[4], by simp [opTable], by decide⟩, by decide⟩
/-- An operand at its bound and one beyond it, in each text of a number, and a line that is taken. -/
theorem witness_AssembledLinesDecode : "255" ∈ numberTexts 0 255 ∧ "0x00ff" ∈ numberTexts 2 255 ∧
    "0x0010000" ∈ numberTexts 2 65536 ∧ "0xFFFF" ∈ numberTexts 0 65535 ∧ assemble "DEC 255" = some (.command 0x11FF0000) := by
  decide +kernel
theorem witness_StepRunsDecodedCommand :
    (small.issueNext 0x02000000).bus = .write 0 (small.issueNext 0x02000000).cfg.base 4 0x02000000 :: [] ∧
    (small.issueNext 0x02000000).status.err = 0 ∧ decode 0x02000000 = .command .mvh := by decide
theorem witness_StickyErrorPreamble :
    pending.status.err ≠ 0 ∧ (0x10040000#32) ≠ 0x0F000000 ∧ small.status.err = 0 ∧
    (∃ why, decode 0x0F000001 = .illegal why) ∧ decode 0x0F000000 = .command .clrerr :=
  ⟨by decide, by decide, by decide, ⟨_, rfl⟩, by decide⟩
theorem witness_StepPerformsHostAccess :
    ({ small with bus := [.read 2 (small.cfg.base + (0xFFFC#16).toNat) 4] } : State).bus =
      .read 2 (small.cfg.base + (0xFFFC#16).toNat) 4 :: [] ∧
    ({ small with bus := [.write 2 (small.cfg.base + (0#16).toNat) 4 7] } : State).bus =
      .write 2 (small.cfg.base + (0#16).toNat) 4 7 :: [] ∧ (0xFFFC#16).toNat % 4 = 0 ∧ (0#16).toNat % 4 = 0 := by decide
theorem witness_AccessErrorStopsTheRun :
    (∃ rest, ({ small with bus := [.read 0 (small.cfg.base + (4#16).toNat) 1] } : State).bus =
      .read 0 (small.cfg.base + (4#16).toNat) 1 :: rest) ∧
    (∃ rest, ({ small with bus := [.write 0 (small.cfg.base + (0xFFFF#16).toNat) 4 7] } : State).bus =
      .write 0 (small.cfg.base + (0xFFFF#16).toNat) 4 7 :: rest) ∧
    (1 ≠ 4) ∧ (0xFFFF#16).toNat % 4 ≠ 0 := ⟨⟨_, rfl⟩, ⟨_, rfl⟩, by decide, by decide⟩
theorem witness_QuietBusChangesNothing : pending.bus = [] := by decide
theorem witness_ResetInputResets : ({ lost3 with bus := [.reset] } : State).bus = .reset :: [] := by decide
theorem witness_IdReportsTheParameters : State.reset.cfg.Valid ∧ (Config.mk 1 0).Valid ∧ small.cfg.Valid := by decide
theorem witness_HostReadsTheAddressMap : (Config.mk 1 0).Valid ∧ State.reset.cfg.Valid ∧
    reservedOffset 0x0030 ∧ reservedOffset 0x0FFC ∧ reservedOffset 0x4700 ∧ reservedOffset 0x5700 ∧ reservedOffset 0xFFFC ∧
    (0xFFFC#16).toNat % 4 = 0 := ⟨by decide, by decide, by simp [reservedOffset]⟩
theorem witness_HostWritesRegistersAndEntries : 1023 < 1024 ∧ 1 < small.cfg.nmax ∧ ¬ 2 < small.cfg.nmax := by decide
theorem witness_HostWritesChannelWords : 63 < 64 ∧ 1023 / 32 = 31 ∧ 1023 < State.reset.cfg.nmax := by decide
theorem witness_HostWritesIgnored : 1023 < 1024 ∧ reservedOffset 0x4FFC := by simp [reservedOffset]
theorem witness_HostWritesIdempotent : lost3.mem.wf lost3.cfg.nmax ∧ (0x5300#16).toNat % 4 = 0 ∧ (0x5300#16) ≠ 0 ∧
    ∃ t, lost3.memWrite 0x5300 1 = .next t := ⟨by decide +kernel, by decide, by decide, ⟨_, rfl⟩⟩
theorem witness_BytesAreLittleEndian : (0x0004#16).toNat % 4 = 0 ∧ 3 < 4 := by decide
theorem witness_ProductIsRowParity : 6 < 7 := by decide
theorem witness_ColumnsOfHAreOneToSeven : (7 : Syndrome) ≠ 0 := by decide
theorem witness_EncEncodesOrFaults : (4 = 4) ∧ (3 ≠ 4) ∧ (255 ≠ 4) := by decide
theorem witness_DecDecodesOrFaults : small.regC.e = 0 ∧ (8 ≠ 7) ∧ ({ small with regC := ⟨0x53, 1⟩ } : State).regC.e ≠ 0 := by
  decide
theorem witness_SingleErrorsAreCorrected : popcount (0 : Bits7) ≤ 1 ∧ popcount (0x40 : Bits7) ≤ 1 := by decide
theorem witness_EncFlipDecRecovers : popcount (0x01 : Bits7) ≤ 1 := by decide
theorem witness_EdecCompletesTheCodeword :
    2 < popcount ({ small with regC := ⟨0x52, 0x07⟩ } : State).regC.e ∧
    popcount ({ small with regC := ⟨0x52, 0x60⟩ } : State).regC.e ≤ 2 ∧ popcount small.regC.e ≤ 2 := by decide
theorem witness_ErasedValuesAreNotRead :
    (0x5A : Bits7) &&& ~~~({ small with regC := ⟨0x52, 0x0A⟩ } : State).regC.e =
      ({ small with regC := ⟨0x52, 0x0A⟩ } : State).regC.v &&& ~~~({ small with regC := ⟨0x52, 0x0A⟩ } : State).regC.e ∧
    ∃ t, exec .edec { small with regC := ⟨0x52, 0x0A⟩ } = .next t := ⟨by decide, ⟨_, rfl⟩⟩
theorem witness_CandidatesAreUnique : popcount (0x60 : Bits7) ≤ 2 ∧ 3 < 2 ^ popcount (0x60 : Bits7) ∧
    candidateImage 0x60 3 = candidateImage 0x60 3 := by decide
theorem witness_TwoErasuresAreRecovered : popcount (0x0A : Bits7) ≤ 2 ∧
    (0x5A : Bits7) &&& ~~~0x0A = enc 0xA &&& ~~~0x0A := by decide
theorem witness_IlvTransposesOrFaults : batch2.regN.toNat ≤ batch2.cfg.nmax ∧
    ({ small with regN := 3 } : State).cfg.nmax < ({ small with regN := 3 } : State).regN.toNat := by decide
theorem witness_Ilv1ScattersOrFaults : batch2.regN.toNat ≤ batch2.cfg.nmax ∧ 1 < batch2.regN.toNat ∧ batch2.regN.toNat ≤ 2 ∧
    ({ small with regN := 3 } : State).cfg.nmax < ({ small with regN := 3 } : State).regN.toNat := by decide
theorem witness_DilGathersOrFaults : lost3.regN.toNat ≤ lost3.cfg.nmax ∧ 1 < lost3.regN.toNat ∧ lost3.chstat = 0x7F ∧
    lost3.regN.toNat ≤ 2 ∧ 1 < batch2.regN.toNat ∧ batch2.chstat ≠ 0x7F := by decide
theorem witness_DilbTransposesOrFaults : lost3.regN.toNat ≤ lost3.cfg.nmax ∧ lost3.chstat = 0x7F ∧
    batch2.regN.toNat ≤ batch2.cfg.nmax ∧ batch2.chstat ≠ 0x7F ∧
    ({ lost3 with regN := 3 } : State).cfg.nmax < ({ lost3 with regN := 3 } : State).regN.toNat := by decide
/-- The state `v` of each clause is the state `u` itself. -/
theorem witness_InterleavingRoundTrips :
    (∃ u, exec .ilv batch2 = .next u ∧ u.faultLog = batch2.faultLog ∧ u.chstat = 0x7F) ∧
    (∃ u, exec .dilb lost3 = .next u ∧ u.faultLog = lost3.faultLog) := ⟨⟨_, rfl, rfl, rfl⟩, ⟨_, rfl, rfl⟩⟩
theorem witness_LostChannelErasesOneSlot : lost3.regN.toNat ≤ lost3.cfg.nmax ∧ lost3.chstat = 0x7F ∧
    ∀ (d : Fin 7) (k : Nat), k < lost3.regN.toNat → lost3.mem.cheAt d k = decide (d = 3) := by decide +kernel
theorem witness_ScatterEachEqualsIlv : batch2.regN.toNat ≤ batch2.cfg.nmax := by decide
theorem witness_ChrdyMarksOrFaults : 6 < 7 ∧ 7 ≤ 7 := by decide
theorem witness_ChlostErasesOrFaults : batch2.regN.toNat ≤ batch2.cfg.nmax ∧ 6 < 7 ∧ 7 ≤ 7 := by decide
theorem witness_EncbEncodesOrFaults : batch2.regN.toNat ≤ batch2.cfg.nmax ∧
    ({ batch2 with regN := 3 } : State).cfg.nmax < ({ batch2 with regN := 3 } : State).regN.toNat := by decide
theorem witness_DecbDecodesOrFaults : batch2.regN.toNat ≤ batch2.cfg.nmax ∧ 1 < batch2.regN.toNat ∧ (batch2.mem.cwbAt 1).e = 0 ∧
    (({ batch2.mem with cwb := [(0, ⟨0x52, 7⟩)] } : Memory).cwbAt 0).e ≠ 0 ∧
    ({ batch2 with regN := 3 } : State).cfg.nmax < ({ batch2 with regN := 3 } : State).regN.toNat := by decide
/-- Each fault a decoded command can report, and none. -/
theorem witness_FaultPriorityAndPrecision :
    (Instr.chlost 9).firstFault batch2 = some .illegalOperand ∧ (Instr.enc 3).firstFault batch2 = some .invalidLength ∧
    (Instr.dec 7).firstFault { small with regC := ⟨0x53, 1⟩ } = some .erasedInput ∧
    Instr.dilb.firstFault batch2 = some .partialBatch ∧ Instr.dilb.firstFault lost3 = none := by decide
theorem witness_CommandsWriteOnlyTheirState : ∃ t, exec .nop batch2 = .next t ∧
    (∀ len k, Instr.nop ≠ .mvg ∧ Instr.nop ≠ .enc len ∧ Instr.nop ≠ .dil k) ∧
    (∀ len, Instr.nop ≠ .mvh ∧ Instr.nop ≠ .dec len ∧ Instr.nop ≠ .edec) ∧
    (∀ c, Instr.nop ≠ .ilv ∧ Instr.nop ≠ .chrdy c ∧ Instr.nop ≠ .chlost c ∧ Instr.nop ≠ .bclr) ∧
    (∀ k, Instr.nop ≠ .ilv ∧ Instr.nop ≠ .ilv1 k ∧ Instr.nop ≠ .chlost k ∧ Instr.nop ≠ .bclr) ∧
    Instr.nop.firstFault batch2 = none ∧ Instr.nop ≠ .clrerr ∧ Instr.nop.writesDecodeFlags = false :=
  ⟨_, rfl, by simp, by simp, by simp, by simp, by decide, by decide, rfl⟩
theorem witness_OnlyClrerrOrResetClearsErr : (pending.issueNext 0x0F000000).status.err ≠ 0 ∧
    (∃ t, step (pending.issueNext 0x0F000000) = .next t) ∧ (∃ t, step { pending with bus := [.reset] } = .next t) ∧
    ∃ t, step (pending.issueNext 0x10040000) = .next t := ⟨by decide, ⟨_, rfl⟩, ⟨_, rfl⟩, ⟨_, rfl⟩⟩
theorem witness_AgentsAreAlike :
    (∃ t, step { small with bus := [.read 1 0x104 4] } = .next t) ∧
    ∃ t, step { small with bus := [.write 1 0x108 4 5] } = .next t := ⟨⟨_, rfl⟩, ⟨_, rfl⟩⟩
theorem witness_ResetSatisfiesInv : (Config.mk 1 0).Valid ∧ (Config.mk 1024 0x40000000).Valid := by decide
theorem witness_StepKeepsInv : (small.issueNext 0x01000000).Inv ∧ ∃ t, step (small.issueNext 0x01000000) = .next t :=
  ⟨⟨by decide, by decide +kernel, by decide, fun _ => rfl, fun h => absurd rfl h, by decide, fun _ => (by decide : (default : DobEntry).Legal)⟩, ⟨_, rfl⟩⟩
/-- The invariant also holds while a fault is pending. -/
theorem witness_StepKeepsInv_pending : pending.Inv ∧ ∃ t, step pending = .next t :=
  ⟨⟨by decide, by decide +kernel, by decide, fun h => absurd h (by decide), fun _ => ⟨.invalidLength, [], rfl, by decide,
    fun h => absurd h (by decide), fun ⟨_, h⟩ => absurd h (by simp [show decode pending.errcmd = .command (.enc 5) by decide])⟩,
    by decide, fun _ => (by decide : (default : DobEntry).Legal)⟩, ⟨_, rfl⟩⟩
theorem witness_StepKeepsTheParameters : ∃ t, step small = .next t := ⟨_, rfl⟩
theorem witness_BatchCorrectsSingleErrors :
    let s : State := { batch2 with mem := { batch2.mem with cwb := [(0, ⟨0x53, 0⟩), (1, ⟨0x06, 0⟩)] } }
    s.regN.toNat ≤ s.cfg.nmax ∧ (∀ _ : Nat, popcount (1 : Bits7) ≤ 1) ∧
    ∀ k, k < s.regN.toNat → s.mem.cwbAt k = { v := enc (s.mem.dibAt k) ^^^ 1, e := 0 } :=
  ⟨by decide, fun _ => by decide, by decide⟩
theorem witness_TwoLostChannelsAreRecovered :
    let s : State := { batch2 with
      bus := [Instr.encb, .ilv, .chlost 1, .chlost 6, .dilb, .decb].map (fun i => issueEvent batch2.cfg 0 (encode i)) }
    1 < 7 ∧ 6 < 7 ∧ s.regN.toNat ≤ s.cfg.nmax ∧ s.status.err = 0 ∧
    s.bus = [Instr.encb, .ilv, .chlost 1, .chlost 6, .dilb, .decb].map (fun i => issueEvent s.cfg 0 (encode i)) := by decide

end Sys2Proof.Tests
end

section
/-! SUPPORT. A postcondition of whatever next state a result answers, with one rule for each piece a command's meaning is
made of; and the parameters under every update (R6, R7). -/

namespace Sys2Proof.Machine

/-- Every next state a result answers satisfies `P`; of a stop it says nothing. -/
def Ensures (P : State → Prop) (r : Result) : Prop := ∀ t, r = .next t → P t

namespace Ensures

variable {P : State → Prop} {s t : State}

theorem next (h : P t) : Ensures P (.next t) := by
  rintro _ ⟨⟩
  exact h

/-- A check: `P` of the state with the fault raised, and of what the command answers when it goes on. -/
theorem check {bad : Bool} {e : ErrCode} {i : Instr} {go : Result} (hraise : P (s.raise e (encode i)))
    (hgo : Ensures P go) : Ensures P (check bad e i s go) := by
  intro t h
  obtain ⟨-, rfl⟩ | ⟨-, h⟩ := check_eq_next h
  · exact hraise
  · exact hgo t h

/-- A channel operand: `P` of the state with the fault raised, and of what the command answers for each channel. -/
theorem withChannel {c : Nat} {i : Instr} {go : Fin 7 → Result} (hraise : P (s.raise .illegalOperand (encode i)))
    (hgo : ∀ ch, Ensures P (go ch)) : Ensures P (withChannel c i s go) := by
  intro t h
  obtain ⟨-, rfl⟩ | ⟨hc, h⟩ := withChannel_eq_next h
  · exact hraise
  · exact hgo ⟨c, hc⟩ t h

end Ensures

/-! ## The parameters -/

@[simp] theorem applyReset_cfg (s : State) : s.applyReset.cfg = s.cfg := rfl

/-- A host write stores in a register or a buffer, never in the parameters. -/
@[simp] theorem writeAt_cfg (s : State) (v : Word) (l : Location) : (s.writeAt v l).cfg = s.cfg := by
  cases l with
  | dib k | cwb k =>
    simp only [State.writeAt]
    split <;> rfl
  | cmd | status | d | c | s | p | q | cc | n | chstat | errcmd | id | dob | chv | che | reserved => rfl

/-- No command writes the parameters: each arm names its checks, whose faults keep them, and the update that is outermost in
its meaning. (`rfl` on the whole state would unfold the buffer loops.) -/
theorem exec_ensures_cfg (i : Instr) (s : State) : Ensures (fun t => t.cfg = s.cfg) (exec i s) := by
  cases i with
  | nop => exact .next rfl
  | mvg => exact .next (withC_cfg ..)
  | mvh => exact .next (withS_cfg ..)
  | clrerr => exact .next (acknowledge_cfg ..)
  | edec => exact .next (withDecodeFlags_cfg ..)
  | bclr => exact .next (withChstat_cfg ..)
  | enc _ => exact .check (raise_cfg ..) (.next (withC_cfg ..))
  | ilv => exact .check (raise_cfg ..) (.next (withChstat_cfg ..))
  | encb => exact .check (raise_cfg ..) (.next (withMem_cfg ..))
  | decb => exact .check (raise_cfg ..) (.next (withDecodeFlags_cfg ..))
  | dec _ => exact .check (raise_cfg ..) (.check (raise_cfg ..) (.next (withDecodeFlags_cfg ..)))
  | ilv1 _ => exact .check (raise_cfg ..) (.check (raise_cfg ..) (.next (withMem_cfg ..)))
  | dilb => exact .check (raise_cfg ..) (.check (raise_cfg ..) (.next (withMem_cfg ..)))
  | dil _ => exact .check (raise_cfg ..) (.check (raise_cfg ..) (.check (raise_cfg ..) (.next (withC_cfg ..))))
  | chrdy _ => exact .withChannel (raise_cfg ..) fun _ => .next (markPresent_cfg ..)
  | chlost _ => exact .check (raise_cfg ..) (.withChannel (raise_cfg ..) fun _ => .next (markPresent_cfg ..))

/-- No command word writes the parameters, whether it is performed, dropped or illegal (R214). -/
theorem perform_ensures_cfg (w : Word) (s : State) : Ensures (fun t => t.cfg = s.cfg) (perform w s) := by
  obtain ⟨-, -, h⟩ | ⟨-, -, h⟩ | ⟨-, -, h⟩ | ⟨-, i, -, h⟩ := perform_cases w s <;> rw [h]
  case inl | inr.inl | inr.inr.inl => exact .next rfl
  case inr.inr.inr => exact exec_ensures_cfg i s

end Sys2Proof.Machine

namespace Sys2Proof.Proofs

open Sys2Proof.Machine

/-- Settles O57: a read answers, a write performs a command word or stores, and reset starts again with the same
parameters. -/
theorem stepKeepsTheParameters : Obligations.StepKeepsTheParameters := by
  intro s t h
  obtain ⟨-, rfl⟩ | ⟨ev, rest, -, hev⟩ := step_cases h
  · rfl
  · obtain ⟨agent, addr, off, -, -, -, rfl⟩ | ⟨agent, addr, off, w, -, -, -, -, hw⟩ |
      ⟨agent, addr, off, w, -, -, -, -, rfl⟩ | ⟨-, rfl⟩ := hev
    · rfl
    · have hcfg := perform_ensures_cfg w _ t hw
      exact hcfg
    · exact writeAt_cfg _ w _
    · exact applyReset_cfg _

end Sys2Proof.Proofs
end

section
/-! SUPPORT. What a command does, said once: the checks of R215 in their order, and then its effect. -/

namespace Sys2Proof

open Machine

/-- What a command writes when it meets no fault, as its meaning has it after the last check. (A channel operand that
names no channel has no effect to speak of: it meets a fault.) -/
def Instr.effect (i : Instr) (s : State) : State :=
  match i with
  | .nop => s
  | .mvg => s.withC { v := Machine.enc s.regD, e := 0 }
  | .mvh => s.withS (syn (s.regC.v &&& ~~~s.regC.e))
  | .clrerr => s.acknowledge
  | .enc _ => s.withC { v := Machine.enc s.regD, e := 0 }
  | .dec _ =>
    let r := secDecode s.regC.v
    (s.withDecoded r.s r.p r.cc r.q).withDecodeFlags r.corr false false
  | .edec =>
    let r := Machine.edec s.regC
    (s.withDecoded r.s 0 r.cc r.q).withDecodeFlags false r.uncorr r.noMatch
  | .ilv => (s.withMem (s.mem.interleave s.batch)).withChstat 0x7F#7
  | .ilv1 k => s.withMem (s.mem.scatter k s.regC)
  | .dil k => s.withC (s.mem.gather k)
  | .dilb => s.withMem (s.mem.deinterleave s.batch)
  | .chrdy c => (channel? c).elim s s.markPresent
  | .chlost c => (channel? c).elim s fun ch => (s.withMem (s.mem.markLost ch s.batch)).markPresent ch
  | .bclr => (s.withMem (s.mem.clearErasures s.cfg.nmax)).withChstat 0
  | .encb => s.withMem (s.mem.encodeBatch s.batch)
  | .decb =>
    (s.withMem (s.mem.decodeBatch s.batch)).withDecodeFlags (s.mem.batchFlag s.batch DobEntry.corr)
      (s.mem.batchFlag s.batch DobEntry.uncorr) (s.mem.batchFlag s.batch DobEntry.noMatch)

namespace Machine

/-- Two checks with one fault are one check. -/
theorem check_or (a b : Bool) (e : ErrCode) (i : Instr) (s : State) (go : Result) :
    check (a || b) e i s go = check a e i s (check b e i s go) := by
  cases a <;> rfl

/-- A channel operand is a check that it names a channel. -/
theorem withChannel_eq_check (c : Nat) (i : Instr) (s : State) (f : Fin 7 → State) :
    withChannel c i s (fun ch => .next (f ch)) =
      check (decide (7 ≤ c)) .illegalOperand i s (.next ((channel? c).elim s f)) := by
  by_cases h : c < 7
  · simp [h, channel?_of_lt h, Nat.not_le.mpr h]
  · simp [Nat.not_lt.mp h]

/-- A vector is not all zeros iff one of its bits is 1. -/
theorem bne_zero_eq_exists_bit {n : Nat} (v : BitVec n) :
    (v != 0) = decide (∃ j : Fin n, v.getLsbD j = true) := by
  rw [Bool.eq_iff_iff, bne_iff_ne, decide_eq_true_iff]
  constructor
  · intro hv
    refine Classical.byContradiction fun hbits => hv (BitVec.eq_of_getLsbD_eq fun j hj => ?_)
    have hbit : v.getLsbD j = false := eq_false_of_ne_true fun hb => hbits ⟨⟨j, hj⟩, hb⟩
    exact hbit.trans BitVec.getLsbD_zero.symm
  · rintro ⟨j, hj⟩ rfl
    simp at hj

/-- A set of channels is not full iff it misses one. -/
theorem bne_full_eq_exists_missing (v : Bits7) : (v != 0x7F#7) = decide (∃ c : Fin 7, v.getLsbD c = false) := by
  revert v
  decide

/-- Every command is its checks, in the order of R215, and then its effect. -/
theorem exec_eq_checks (i : Instr) (s : State) :
    exec i s =
      check (i.meets s .illegalOperand) .illegalOperand i s
        (check i.lengthWrong .invalidLength i s
          (check (i.inputErased s) .erasedInput i s
            (check (i.channelMissing s) .partialBatch i s (.next (i.effect s))))) := by
  cases i with
  | nop | mvg | mvh | clrerr | enc _ | edec | bclr => rfl
  | ilv | encb | decb =>
    rw [Instr.meets, Instr.argOutside, Bool.or_false]
    rfl
  | ilv1 _ =>
    rw [Instr.meets, check_or]
    rfl
  | dec _ =>
    show check _ _ _ s (check (s.regC.e != 0) _ _ s _) = _
    rw [bne_zero_eq_exists_bit]
    rfl
  | dil _ =>
    show check _ _ _ s (check _ _ _ s (check (s.chstat != 0x7F#7) _ _ s _)) = _
    rw [bne_full_eq_exists_missing, Instr.meets, check_or]
    rfl
  | dilb =>
    show check _ _ _ s (check (s.chstat != 0x7F#7) _ _ s _) = _
    rw [bne_full_eq_exists_missing, Instr.meets, Instr.argOutside, Bool.or_false]
    rfl
  | chrdy _ => exact withChannel_eq_check ..
  | chlost _ =>
    rw [Instr.meets, check_or]
    exact congrArg (check _ _ _ s) (withChannel_eq_check ..)

/-- Checks made in the order of a list report the first fault of the list that the command meets. -/
theorem foldr_check_eq (i : Instr) (s t : State) (order : List ErrCode) :
    order.foldr (fun e go => check (i.meets s e) e i s go) (.next t) =
      .next ((order.find? (i.meets s)).elim t fun e => s.raise e (encode i)) := by
  induction order with
  | nil => rfl
  | cons e rest ih => cases h : i.meets s e <;> simp [h, ih]

/-- A command always answers a next state: the one its first fault raises (R212), or else its effect. -/
theorem exec_eq_next (i : Instr) (s : State) :
    exec i s = .next ((i.firstFault s).elim (i.effect s) fun e => s.raise e (encode i)) := by
  rw [exec_eq_checks]
  exact foldr_check_eq i s _ faultPriority

/-- What a command that answers a next state did. -/
theorem exec_cases {i : Instr} {s t : State} (h : exec i s = .next t) :
    (∃ e, i.firstFault s = some e ∧ t = s.raise e (encode i)) ∨ (i.firstFault s = none ∧ t = i.effect s) := by
  rw [exec_eq_next] at h
  obtain rfl := Host.Outcome.next.inj h
  cases hf : i.firstFault s with
  | none => exact .inr ⟨rfl, rfl⟩
  | some e => exact .inl ⟨e, rfl, rfl⟩

/-! What the first fault says of the conditions. -/

theorem firstFault_ne_illegalCommand {i : Instr} {s : State} {e : ErrCode} (h : i.firstFault s = some e) :
    e ≠ .illegalCommand := by
  rintro rfl
  exact absurd (List.find?_some h) Bool.false_ne_true

theorem meets_eq_false_of_firstFault {i : Instr} {s : State} (h : i.firstFault s = none) (e : ErrCode) :
    i.meets s e = false := by
  have he : e ∈ faultPriority := by cases e <;> decide
  simpa using List.find?_eq_none.mp h e he

/-- A command that reads `N` and meets no fault has a batch the buffers hold (R29). -/
theorem batch_le_of_firstFault {i : Instr} {s : State} (h : i.firstFault s = none) (hi : i.checksBatch = true) :
    s.batch ≤ s.cfg.nmax := by
  have hm := meets_eq_false_of_firstFault h .illegalOperand
  simp only [Instr.meets, hi, Bool.true_and, Bool.or_eq_false_iff, decide_eq_false_iff_not] at hm
  exact Nat.not_lt.mp hm.1

/-- A command that meets no fault names a place in range (R73). -/
theorem argOutside_of_firstFault {i : Instr} {s : State} (h : i.firstFault s = none) : i.argOutside s = false :=
  (Bool.or_eq_false_iff.mp (meets_eq_false_of_firstFault h .illegalOperand)).2

end Machine
end Sys2Proof

namespace Sys2Proof.Proofs

open Sys2Proof.Machine

/-- Settles O52: a command raises its first fault, or its effect writes what its rule names. -/
theorem commandsWriteOnlyTheirState : Obligations.CommandsWriteOnlyTheirState := by
  intro i s t h
  obtain ⟨e, he, rfl⟩ | ⟨-, rfl⟩ := exec_cases h
  · simp [he]
  · cases i with
    | chrdy c | chlost c => cases hc : channel? c <;> simp [Instr.effect, hc]
    | nop | mvg | mvh | clrerr | enc _ | dec _ | edec | ilv | ilv1 _ | dil _ | dilb | bclr | encb | decb =>
      simp [Instr.effect, Instr.writesDecodeFlags]

end Sys2Proof.Proofs
end

section
/-! SUPPORT. The host port's part of the state: the address an offset came from, what a host write leaves alone, the
word `ID`. -/

namespace Sys2Proof.Machine

/-- An offset in the window is reached by one address (R50). -/
theorem addr_of_windowOffset {cfg : Config} {addr : Nat} {off : Offset} (h : windowOffset cfg addr = some off) :
    addr = cfg.base + off.toNat := by
  unfold windowOffset at h
  split at h
  · obtain rfl := Option.some.inj h
    rw [BitVec.toNat_ofNat]
    omega
  · cases h

/-- A host write stores in a register or a buffer, never in `STATUS`, `ERRCMD` or the ghost record. -/
theorem writeAt_fault (s : State) (v : Word) (l : Location) :
    (s.writeAt v l).status = s.status ∧ (s.writeAt v l).errcmd = s.errcmd ∧ (s.writeAt v l).faultLog = s.faultLog := by
  cases l with
  | dib k | cwb k =>
    simp only [State.writeAt]
    split <;> simp
  | cmd | status | d | c | s | p | q | cc | n | chstat | errcmd | id | dob | chv | che | reserved => simp [State.writeAt]

/-- While a fault is pending a command word acknowledges it or is dropped (R214). -/
theorem perform_eq_next_of_pending {w : Word} {s t : State} (h : perform w s = .next t) (hp : s.status.err ≠ 0) :
    (w = 0x0F000000#32 ∧ t = s.acknowledge) ∨ t = s := by
  rw [perform_pending hp] at h
  split at h
  · exact .inl ⟨‹_›, (Host.Outcome.next.inj h).symm⟩
  · exact .inr (Host.Outcome.next.inj h).symm

theorem memRead_id (s : State) : s.memRead 0x002C = idWord s.cfg := rfl

/-- The fields of the word `ID` (R33). -/
theorem idWord_fields (cfg : Config) :
    (idWord cfg).extractLsb' 0 16 = BitVec.ofNat 16 cfg.nmax ∧ (idWord cfg).extractLsb' 16 4 = 7 ∧
    (idWord cfg).extractLsb' 20 4 = 4 ∧ (idWord cfg).extractLsb' 24 4 = 3 ∧ (idWord cfg).extractLsb' 28 4 = 1 := by
  have hfixed : ∀ start, 16 ≤ start → (idWord cfg).extractLsb' start 4 = (0x1347#16).extractLsb' (start - 16) 4 :=
    fun _ hstart => BitVec.extractLsb'_append_eq_of_le hstart
  exact ⟨BitVec.extractLsb'_append_eq_right, hfixed 16 (by decide), hfixed 20 (by decide), hfixed 24 (by decide),
    hfixed 28 (by decide)⟩

end Sys2Proof.Machine

namespace Sys2Proof.Proofs

open Sys2Proof.Machine

/-- Settles O53: while a fault is pending a command word is dropped unless it is `CLRERR`, and no other access touches
`STATUS`, `ERRCMD` or the ghost record. -/
theorem onlyClrerrOrResetClearsErr : Obligations.OnlyClrerrOrResetClearsErr := by
  intro s t hp h
  obtain ⟨-, rfl⟩ | ⟨ev, rest, hbus, hev⟩ := step_cases h
  · exact .inl ⟨rfl, rfl, rfl⟩
  obtain ⟨agent, addr, off, -, -, -, rfl⟩ | ⟨agent, addr, off, w, rfl, hwin, halign, hloc, hw⟩ |
    ⟨agent, addr, off, w, -, -, -, -, rfl⟩ | ⟨rfl, rfl⟩ := hev
  · exact .inl ⟨rfl, rfl, rfl⟩
  · obtain ⟨rfl, rfl⟩ | rfl := perform_eq_next_of_pending hw hp
    · obtain rfl := locate_eq_cmd halign hloc
      obtain rfl : addr = s.cfg.base := addr_of_windowOffset hwin
      exact .inr ⟨rfl, rfl, rest, .inr ⟨agent, hbus⟩⟩
    · exact .inl ⟨rfl, rfl, rfl⟩
  · obtain ⟨hstatus, herrcmd, hlog⟩ := writeAt_fault { s with bus := rest, reply := .written agent } w (locate off)
    exact .inl ⟨congrArg Status.err hstatus, herrcmd, hlog⟩
  · exact .inr ⟨rfl, rfl, rest, .inl hbus⟩

/-- Settles O11: the bus serves its oldest event, and there is none. -/
theorem quietBusChangesNothing : Obligations.QuietBusChangesNothing := fun _ => step_quiet

/-- Settles O13: the registers and flags are 0 by R42, and the cleared buffers read 0 at every index. -/
theorem resetStateIsZero : Obligations.ResetStateIsZero := by
  intro cfg s
  have hstatus : Status.word ⟨0, false, false, false⟩ = 0 := by decide
  have hbuf : ∀ k, s.mem.dibAt k = 0 ∧ (s.mem.dobAt k).word = 0 ∧ (s.mem.cwbAt k).v = 0 ∧ (s.mem.cwbAt k).e = 0 :=
    fun k => ⟨cleared_dibAt k, congrArg DobEntry.word (cleared_dobAt k), rfl, rfl⟩
  have hchan : ∀ c k, s.mem.chvAt c k = false ∧ s.mem.cheAt c k = false :=
    fun c k => ⟨cleared_chvAt c k, cleared_cheAt c k⟩
  exact ⟨hstatus, rfl, rfl, rfl, rfl, rfl, rfl, rfl, rfl, rfl, rfl, hbuf, hchan, memRead_id s⟩

/-- Settles O14: `ID` reads as its constant, whose fields are the spec's; a valid `NMAX` fits its field. -/
theorem idReportsTheParameters : Obligations.IdReportsTheParameters := by
  refine ⟨fun s hs => ?_, rfl⟩
  obtain ⟨hnmax, hfields⟩ := idWord_fields s.cfg
  rw [memRead_id, hnmax, BitVec.toNat_ofNat]
  exact ⟨Nat.mod_eq_of_lt (by have := hs.2; omega), hfields⟩

end Sys2Proof.Proofs
end

section
/-! SUPPORT. A decoded command is encoded by the word it came from (R70, R75): what a fault writes into `ERRCMD` is the
word the host wrote. -/

namespace Sys2Proof

/-- The command a row builds from a word it admits is encoded by that word. -/
def OpRow.Faithful (r : OpRow) : Prop :=
  ∀ w, r.admits w = true → encode (r.build (lenField w).toNat (argField w).toNat) = w

/-- A row without operands admits the word of its command alone. -/
theorem faithful_fixed {n : String} {p : Word} {i : Instr} (hi : encode i = p) :
    (OpRow.mk n p 0xFFFFFFFF fun _ _ => i).Faithful := by
  intro w h
  rw [admits_fixed, decide_eq_true_iff] at h
  rw [hi, h]

/-- A row with `LEN` free admits the words of its command, one for each `LEN`. -/
theorem faithful_len {n : String} {p : Word} {b : Nat → Instr} (hp : lenField p = 0 ∧ argField p = 0)
    (hopc : ∀ len, (b len).opc = opcField p) (hlen : ∀ len, (b len).len = len)
    (harg : ∀ len, (b len).arg = 0) :
    (OpRow.mk n p 0xFF00FFFF fun len _ => b len).Faithful := by
  intro w h
  rw [admits_len _ _ _ _ hp.1, hp.2, decide_eq_true_iff] at h
  rw [word_eq_iff_fields, h.1, h.2]
  simp [encode, hopc, hlen, harg]

/-- A row with `ARG` free admits the words of its command, one for each `ARG`. -/
theorem faithful_arg {n : String} {p : Word} {b : Nat → Instr} (hp : lenField p = 0 ∧ argField p = 0)
    (hopc : ∀ arg, (b arg).opc = opcField p) (hlen : ∀ arg, (b arg).len = 0)
    (harg : ∀ arg, (b arg).arg = arg) : (OpRow.mk n p 0xFFFF0000 fun _ arg => b arg).Faithful := by
  intro w h
  rw [admits_arg _ _ _ _ hp.2, hp.1, decide_eq_true_iff] at h
  rw [word_eq_iff_fields, h.1, h.2]
  simp [encode, hopc, hlen, harg]

/-- Every row of R75 is one of the three kinds. -/
theorem opTable_faithful : ∀ r ∈ opTable, r.Faithful := by
  simp only [opTable, List.forall_mem_cons, List.not_mem_nil, false_implies, implies_true, and_true]
  exact ⟨faithful_fixed rfl, faithful_fixed rfl, faithful_fixed rfl, faithful_fixed rfl,
    faithful_len (by decide) (fun _ => rfl) (fun _ => rfl) (fun _ => rfl),
    faithful_len (by decide) (fun _ => rfl) (fun _ => rfl) (fun _ => rfl),
    faithful_fixed rfl, faithful_fixed rfl,
    faithful_arg (by decide) (fun _ => rfl) (fun _ => rfl) (fun _ => rfl),
    faithful_arg (by decide) (fun _ => rfl) (fun _ => rfl) (fun _ => rfl),
    faithful_fixed rfl,
    faithful_arg (by decide) (fun _ => rfl) (fun _ => rfl) (fun _ => rfl),
    faithful_arg (by decide) (fun _ => rfl) (fun _ => rfl) (fun _ => rfl),
    faithful_fixed rfl, faithful_fixed rfl, faithful_fixed rfl⟩

/-- Decoding loses nothing of the word. -/
theorem encode_of_decode {w : Word} {i : Instr} (h : decode w = .command i) : encode i = w := by
  unfold decode at h
  split at h
  case h_1 r hr =>
    obtain rfl := Decoded.command.inj h
    exact opTable_faithful r (List.mem_of_find?_eq_some hr) w (List.find?_some (p := (OpRow.admits · w)) hr)
  case h_2 => split at h <;> cases h

end Sys2Proof
end

section
/-! SUPPORT. The invariant under each update of the state, under a command and under a host write. -/

namespace Sys2Proof.Machine

/-! ## What the decoders answer -/

theorem edec_q (c : TriWord) : (edec c).q = extract (edec c).cc := by
  unfold edec
  split
  · decide
  · dsimp only
    split <;> rfl

/-- The degraded output is 0 and is no failed match (R177); any other output is not degraded. -/
theorem edec_uncorr {c : TriWord} (h : (edec c).uncorr = true) : (edec c).q = 0 ∧ (edec c).noMatch = false := by
  unfold edec at h ⊢
  split at h
  · simp [*]
  · dsimp only at h
    split at h <;> cases h

/-- What `decode_block` answers is a legal entry of `DOB` (R190). -/
theorem decodeBlock_legal (c : TriWord) : (decodeBlock c).Legal := by
  unfold decodeBlock
  split
  · simp [DobEntry.Legal]
  · simpa [DobEntry.Legal] using edec_uncorr

/-- The zero entry is legal: it is what an entry of `DOB` holds after reset (R42). -/
theorem cleared_legal (k : Nat) : (Memory.cleared.dobAt k).Legal := by
  simp [DobEntry.Legal]

/-- `DECB` leaves legal entries where it writes, and the others as they were (R192). -/
theorem decodeBatch_legal {m : Memory} (h : ∀ k, (m.dobAt k).Legal) (n k : Nat) : ((m.decodeBatch n).dobAt k).Legal := by
  rw [decodeBatch_dobAt]
  split
  · exact decodeBlock_legal _
  · exact h k

/-! ## Updates -/

theorem ErrCode.code_le (e : ErrCode) : e.code.toNat ≤ 5 := by cases e <;> decide
theorem ErrCode.code_ne_zero (e : ErrCode) : e.code ≠ 0 := by cases e <;> decide

namespace State.Inv

variable {s : State}

theorem resetWith {cfg : Config} (h : cfg.Valid) : (State.resetWith cfg).Inv where
  config := h
  memory := cleared_wf cfg.nmax
  errRange := Nat.zero_le 5
  errcmdClear _ := rfl
  errNamed h := absurd rfl h
  extracted := (by decide : (0 : DataBlock) = extract 0)
  results := cleared_legal

/-- The registers the invariant does not speak of, the bus and its answer are free. -/
theorem withC (h : s.Inv) (w : TriWord) : (s.withC w).Inv := { h with }
theorem withS (h : s.Inv) (v : Syndrome) : (s.withS v).Inv := { h with }
theorem withChstat (h : s.Inv) (v : Bits7) : (s.withChstat v).Inv := { h with }
theorem markPresent (h : s.Inv) (c : Fin 7) : (s.markPresent c).Inv := { h with }
theorem withDecodeFlags (h : s.Inv) (x y z : Bool) : (s.withDecodeFlags x y z).Inv := { h with }
theorem served (h : s.Inv) (rest : List BusEvent) (r : BusReply) : ({ s with bus := rest, reply := r } : State).Inv :=
  { h with }

theorem withDecoded (h : s.Inv) (sy p : Syndrome) {cc : Bits7} {q : DataBlock} (hq : q = extract cc) :
    (s.withDecoded sy p cc q).Inv := { h with extracted := hq }

/-- New buffers in canonical form with legal results. -/
theorem withMem (h : s.Inv) {m : Memory} (hwf : m.wf s.cfg.nmax) (hres : ∀ k, (m.dobAt k).Legal) :
    (s.withMem m).Inv := { h with memory := hwf, results := hres }

/-- New buffers in canonical form with the results as they were. -/
theorem withMem_dob (h : s.Inv) {m : Memory} (hwf : m.wf s.cfg.nmax) (hdob : m.dob = s.mem.dob) : (s.withMem m).Inv :=
  h.withMem hwf fun k => dobAt_congr hdob k ▸ h.results k

/-- A fault names itself and its word, which must be illegal exactly for `ILLEGAL_COMMAND`. -/
theorem raise (h : s.Inv) {e : ErrCode} {w : Word} (hw : e = .illegalCommand ↔ ∃ why, decode w = .illegal why) :
    (s.raise e w).Inv :=
  { h with
    errRange := e.code_le
    errcmdClear := fun h0 => absurd h0 e.code_ne_zero
    errNamed := fun _ => ⟨e, s.faultLog, rfl, rfl, hw⟩ }

theorem acknowledge (h : s.Inv) : s.acknowledge.Inv :=
  { h with errRange := Nat.zero_le 5, errcmdClear := fun _ => rfl, errNamed := fun h0 => absurd rfl h0 }

theorem applyReset (h : s.Inv) : s.applyReset.Inv := { resetWith h.config with errNamed := fun h0 => absurd rfl h0 }

/-! ## Commands and host writes -/

/-- The effect of a command that meets no fault: what it decodes it extracts, and what it writes into a buffer lies within
the batch, which the buffers hold. -/
theorem effect (h : s.Inv) {i : Instr} (hf : i.firstFault s = none) : (i.effect s).Inv := by
  have hb (hi : i.checksBatch = true) := batch_le_of_firstFault hf hi
  cases i with
  | nop => exact h
  | mvg | enc _ => exact h.withC _
  | mvh => exact h.withS _
  | clrerr => exact h.acknowledge
  | dec _ => exact (h.withDecoded _ _ rfl).withDecodeFlags _ _ _
  | edec => exact (h.withDecoded _ _ (edec_q _)).withDecodeFlags _ _ _
  | ilv => exact (h.withMem_dob (interleave_wf h.memory (hb rfl)) (interleave_dob ..)).withChstat _
  | ilv1 k =>
    have hk : k < s.batch := Nat.not_le.mp (of_decide_eq_false (argOutside_of_firstFault hf))
    exact h.withMem_dob (scatter_wf h.memory (Nat.lt_of_lt_of_le hk (hb rfl)) _) (scatter_dob ..)
  | dil _ => exact h.withC _
  | dilb => exact h.withMem_dob (deinterleave_wf h.memory (hb rfl)) (deinterleave_dob ..)
  | chrdy c =>
    cases hc : channel? c <;> simp only [Instr.effect, hc, Option.elim]
    · exact h
    · exact h.markPresent _
  | chlost c =>
    cases hc : channel? c <;> simp only [Instr.effect, hc, Option.elim]
    · exact h
    · exact (h.withMem_dob (markLost_wf h.memory _ (hb rfl)) (markLost_dob ..)).markPresent _
  | bclr => exact (h.withMem_dob (clearErasures_wf h.memory _) (clearErasures_dob ..)).withChstat _
  | encb => exact h.withMem_dob (encodeBatch_wf h.memory (hb rfl)) (encodeBatch_dob ..)
  | decb => exact (h.withMem (decodeBatch_wf h.memory (hb rfl)) (decodeBatch_legal h.results _)).withDecodeFlags _ _ _

/-- A command word keeps the invariant: a decoded command faults under the word it came from, which is legal. -/
theorem perform (h : s.Inv) {t : State} {w : Word} (hw : perform w s = .next t) : t.Inv := by
  obtain ⟨-, -, hp⟩ | ⟨-, -, hp⟩ | ⟨-, hill, hp⟩ | ⟨-, i, hd, hp⟩ := perform_cases w s <;> rw [hp] at hw
  · obtain rfl := Host.Outcome.next.inj hw
    exact h.acknowledge
  · obtain rfl := Host.Outcome.next.inj hw
    exact h
  · obtain rfl := Host.Outcome.next.inj hw
    exact h.raise (iff_of_true rfl hill)
  · obtain ⟨e, he, rfl⟩ | ⟨hf, rfl⟩ := exec_cases hw
    · rw [encode_of_decode hd]
      exact h.raise (iff_of_false (firstFault_ne_illegalCommand he) (by simp [hd]))
    · exact h.effect hf

/-- A host write stores within the capacity (R52), and never in `DOB`. -/
theorem writeAt (h : s.Inv) (v : Word) (l : Location) : (s.writeAt v l).Inv := by
  cases l with
  | c => exact h.withC _
  | d | n => exact { h with }
  | dib k =>
    simp only [State.writeAt]
    split
    · exact h.withMem_dob (setDib_wf h.memory (of_decide_eq_true ‹_›) _) (setDib_dob ..)
    · exact h
  | cwb k =>
    simp only [State.writeAt]
    split
    · exact h.withMem_dob (setCwb_wf h.memory (of_decide_eq_true ‹_›) _) (setCwb_dob ..)
    · exact h
  | chv c w =>
    exact h.withMem_dob (unpackChannel_wf h.memory w v fun _ b _ hk hy => setChv_wf hy c hk b) (unpackChv_dob ..)
  | che c w =>
    exact h.withMem_dob (unpackChannel_wf h.memory w v fun _ b _ hk hy => setChe_wf hy c hk b) (unpackChe_dob ..)
  | cmd | status | s | p | q | cc | chstat | errcmd | id | dob _ | reserved => exact h

end State.Inv

end Sys2Proof.Machine

namespace Sys2Proof.Proofs

open Sys2Proof.Machine

/-- Settles O56: a read changes nothing the invariant speaks of, a write performs a command word or stores, and reset starts
again. -/
theorem stepKeepsInv : Obligations.StepKeepsInv := by
  intro s t hs h
  obtain ⟨-, rfl⟩ | ⟨ev, rest, -, hev⟩ := step_cases h
  · exact hs
  · obtain ⟨agent, addr, off, -, -, -, rfl⟩ | ⟨agent, addr, off, w, -, -, -, -, hw⟩ |
      ⟨agent, addr, off, w, -, -, -, -, rfl⟩ | ⟨-, rfl⟩ := hev
    · exact hs.served rest _
    · exact (hs.served rest _).perform hw
    · exact (hs.served rest _).writeAt w _
    · exact (hs.served rest s.reply).applyReset

/-- Settles O55: reset meets the invariant for every valid capacity, the reference one among them (R6). -/
theorem resetSatisfiesInv : Obligations.ResetSatisfiesInv :=
  ⟨.resetWith (by decide), fun _ => .resetWith⟩

end Sys2Proof.Proofs
end

section
/-! SUPPORT. The address map (R51) as the statements write its offsets, and the words of the host port as numbers. -/

namespace Sys2Proof.Machine

open Sys2Proof.Claims

/-! ## What stands at an offset -/

theorem toNat_wordOffset {region k : Nat} (h : region + 4 * k < 0x10000) :
    (wordOffset region k).toNat = region + 4 * k := by
  rw [wordOffset, BitVec.toNat_ofNat, Nat.mod_eq_of_lt h]

theorem toNat_channelOffset {region : Nat} (c : Fin 7) {w : Nat} (h : region + 0x100 * c.val + 4 * w < 0x10000) :
    (channelOffset region c w).toNat = region + 0x100 * c.val + 4 * w := by
  rw [channelOffset, BitVec.toNat_ofNat, Nat.mod_eq_of_lt h]

theorem locate_dib {k : Nat} (hk : k < 1024) : locate (wordOffset 0x1000 k) = .dib k := by
  have ha := toNat_wordOffset (region := 0x1000) (k := k) (by omega)
  simp (disch := omega) only [locate, ha, if_neg, if_pos, Location.dib.injEq]
  omega

theorem locate_cwb {k : Nat} (hk : k < 1024) : locate (wordOffset 0x2000 k) = .cwb k := by
  have ha := toNat_wordOffset (region := 0x2000) (k := k) (by omega)
  simp (disch := omega) only [locate, ha, if_neg, if_pos, Location.cwb.injEq]
  omega

theorem locate_dob {k : Nat} (hk : k < 1024) : locate (wordOffset 0x3000 k) = .dob k := by
  have ha := toNat_wordOffset (region := 0x3000) (k := k) (by omega)
  simp (disch := omega) only [locate, ha, if_neg, if_pos, Location.dob.injEq]
  omega

/-- A channel has 64 words, so a word's place in its region names its channel and its index (R59). -/
theorem channelWordAt_channel (region : Nat) (c : Fin 7) {w : Nat} (hw : w < 64) (place : Fin 7 → Nat → Location) :
    channelWordAt region (region + 0x100 * c.val + 4 * w) place = place c w := by
  have hc : (region + 0x100 * c.val + 4 * w - region) / 0x100 = c.val := by omega
  have hi : (region + 0x100 * c.val + 4 * w - region) % 0x100 / 4 = w := by omega
  rw [channelWordAt, hc, hi, channel?_of_lt c.isLt]

/-- A channel region has room for seven channels; what follows them is reserved (R51). -/
theorem channelWordAt_reserved {region a : Nat} (h : region + 0x700 ≤ a) (place : Fin 7 → Nat → Location) :
    channelWordAt region a place = .reserved := by
  rw [channelWordAt, channel?_of_ge (by omega)]

theorem locate_chv (c : Fin 7) {w : Nat} (hw : w < 64) : locate (channelOffset 0x4000 c w) = .chv c w := by
  have ha := toNat_channelOffset (region := 0x4000) c (w := w) (by omega)
  simp (disch := omega) only [locate, ha, if_neg, if_pos]
  exact channelWordAt_channel 0x4000 c hw .chv

theorem locate_che (c : Fin 7) {w : Nat} (hw : w < 64) : locate (channelOffset 0x5000 c w) = .che c w := by
  have ha := toNat_channelOffset (region := 0x5000) c (w := w) (by omega)
  simp (disch := omega) only [locate, ha, if_neg, if_pos]
  exact channelWordAt_channel 0x5000 c hw .che

theorem locate_reserved {off : Offset} (halign : off.toNat % 4 = 0) (h : reservedOffset off) :
    locate off = .reserved := by
  obtain ⟨hlo, hhi⟩ | ⟨hlo, hhi⟩ | ⟨hlo, hhi⟩ := h
  · have hbeyond : registerMap.length ≤ off.toNat / 4 := by
      show 12 ≤ off.toNat / 4
      omega
    simp (disch := omega) only [locate, if_pos]
    simp [List.getElem?_eq_none hbeyond]
  · simp (disch := omega) only [locate, if_neg, if_pos]
    exact channelWordAt_reserved hlo .chv
  · by_cases hche : off.toNat < 0x6000
    · simp (disch := omega) only [locate, if_neg, if_pos]
      exact channelWordAt_reserved hlo .che
    · simp (disch := omega) only [locate, if_neg]

/-! ## Words as numbers -/

/-- Fields that do not overlap add up. -/
theorem toNat_or_shiftLeft {x y : Word} {i : Nat} (hx : x.toNat < 2 ^ i) (hy : 2 ^ i * y.toNat < 2 ^ 32) :
    (x ||| y <<< i).toNat = x.toNat + 2 ^ i * y.toNat := by
  rw [BitVec.toNat_or, BitVec.toNat_shiftLeft, Nat.shiftLeft_eq, Nat.mul_comm, Nat.mod_eq_of_lt hy, Nat.or_comm,
    ← Nat.two_pow_add_eq_or_of_lt hx, Nat.add_comm]

theorem flagAt_eq (b : Bool) (i : Nat) : flagAt b i = (BitVec.ofBool b).setWidth 32 <<< i := by
  cases b <;> simp [flagAt]

/-- A flag above the other fields of a word adds its weight. -/
theorem toNat_or_flagAt {x : Word} {i : Nat} (hx : x.toNat < 2 ^ i) (hi : i < 32) (b : Bool) :
    (x ||| flagAt b i).toNat = x.toNat + 2 ^ i * b.toNat := by
  have hb : ((BitVec.ofBool b).setWidth 32).toNat = b.toNat := by cases b <;> rfl
  rw [flagAt_eq, toNat_or_shiftLeft hx, hb]
  rw [hb]
  calc 2 ^ i * b.toNat ≤ 2 ^ i * 1 := Nat.mul_le_mul_left _ b.toNat_le
    _ < 2 ^ 32 := by simpa using Nat.pow_lt_pow_right (by decide) hi

/-- Four bits of data or code and the three decode flags (R31, R37). -/
theorem toNat_fieldAndFlags (x : BitVec 4) (corr uncorr noMatch : Bool) :
    (x.setWidth 32 ||| flagAt corr 8 ||| flagAt uncorr 9 ||| flagAt noMatch 10).toNat =
      x.toNat + 256 * corr.toNat + 512 * uncorr.toNat + 1024 * noMatch.toNat := by
  have hx : (x.setWidth 32).toNat = x.toNat := BitVec.toNat_setWidth_of_le (by decide)
  have hlt := x.isLt
  have := corr.toNat_le
  have := uncorr.toNat_le
  have h8 : (x.setWidth 32 ||| flagAt corr 8).toNat = (x.setWidth 32).toNat + 256 * corr.toNat :=
    toNat_or_flagAt (i := 8) (by omega) (by decide) corr
  have h9 : (x.setWidth 32 ||| flagAt corr 8 ||| flagAt uncorr 9).toNat =
      (x.setWidth 32 ||| flagAt corr 8).toNat + 512 * uncorr.toNat :=
    toNat_or_flagAt (i := 9) (by omega) (by decide) uncorr
  have h10 : (x.setWidth 32 ||| flagAt corr 8 ||| flagAt uncorr 9 ||| flagAt noMatch 10).toNat =
      (x.setWidth 32 ||| flagAt corr 8 ||| flagAt uncorr 9).toNat + 1024 * noMatch.toNat :=
    toNat_or_flagAt (i := 10) (by omega) (by decide) noMatch
  rw [h10, h9, h8, hx]

theorem toNat_statusWord (st : Status) :
    st.word.toNat = st.err.toNat + 256 * st.corr.toNat + 512 * st.uncorr.toNat + 1024 * st.noMatch.toNat :=
  toNat_fieldAndFlags ..

theorem toNat_dobWord (r : DobEntry) :
    r.word.toNat = r.data.toNat + 256 * r.corr.toNat + 512 * r.uncorr.toNat + 1024 * r.noMatch.toNat +
      2048 * r.epath.toNat := by
  have hlow := toNat_fieldAndFlags r.data r.corr r.uncorr r.noMatch
  have := r.data.isLt
  have := r.corr.toNat_le
  have := r.uncorr.toNat_le
  have := r.noMatch.toNat_le
  rw [← hlow]
  exact toNat_or_flagAt (i := 11) (by omega) (by decide) r.epath

theorem toNat_triWord (c : TriWord) : c.word.toNat = c.v.toNat + 256 * c.e.toNat := by
  have hv : (c.v.setWidth 32).toNat = c.v.toNat := BitVec.toNat_setWidth_of_le (by decide)
  have he : (c.e.setWidth 32).toNat = c.e.toNat := BitVec.toNat_setWidth_of_le (by decide)
  have := c.v.isLt
  have := c.e.isLt
  rw [← hv, ← he]
  exact toNat_or_shiftLeft (i := 8) (by omega) (by omega)

/-- The fields of `ID` (R33), for a capacity that fits its field. -/
theorem toNat_idWord {cfg : Config} (h : cfg.Valid) : (idWord cfg).toNat = 0x1347 * 65536 + cfg.nmax := by
  obtain ⟨-, hmax⟩ := h
  have hn : (BitVec.ofNat 16 cfg.nmax).toNat = cfg.nmax := by
    rw [BitVec.toNat_ofNat]
    omega
  show (0x1347#16 ++ BitVec.ofNat 16 cfg.nmax).toNat = _
  rw [BitVec.toNat_append, ← Nat.shiftLeft_add_eq_or_of_lt (BitVec.isLt _), hn]
  rfl

/-! ## Reads -/

/-- The word of a buffer entry, which is 0 at or beyond `NMAX` (R52). -/
theorem toNat_entryWord (s : State) (k : Nat) (x : Word) :
    (if s.hasEntry k then x else 0).toNat = if k < s.cfg.nmax then x.toNat else 0 := by
  by_cases hk : k < s.cfg.nmax <;> simp [State.hasEntry, hk]

theorem memRead_dib (s : State) {k : Nat} (hk : k < 1024) :
    (s.memRead (wordOffset 0x1000 k)).toNat = if k < s.cfg.nmax then (s.mem.dibAt k).toNat else 0 := by
  rw [State.memRead, locate_dib hk, State.readAt, toNat_entryWord, BitVec.toNat_setWidth_of_le (by decide)]

theorem memRead_cwb (s : State) {k : Nat} (hk : k < 1024) :
    (s.memRead (wordOffset 0x2000 k)).toNat =
      if k < s.cfg.nmax then (s.mem.cwbAt k).v.toNat + 256 * (s.mem.cwbAt k).e.toNat else 0 := by
  rw [State.memRead, locate_cwb hk, State.readAt, toNat_entryWord, toNat_triWord]

theorem memRead_dob (s : State) {k : Nat} (hk : k < 1024) :
    (s.memRead (wordOffset 0x3000 k)).toNat =
      if k < s.cfg.nmax then
        (s.mem.dobAt k).data.toNat + 256 * (s.mem.dobAt k).corr.toNat + 512 * (s.mem.dobAt k).uncorr.toNat +
          1024 * (s.mem.dobAt k).noMatch.toNat + 2048 * (s.mem.dobAt k).epath.toNat
      else 0 := by
  rw [State.memRead, locate_dob hk, State.readAt, toNat_entryWord, toNat_dobWord]

theorem memRead_chv (s : State) (c : Fin 7) {w j : Nat} (hw : w < 64) (hj : j < 32) :
    (s.memRead (channelOffset 0x4000 c w)).getLsbD j =
      (decide (32 * w + j < s.cfg.nmax) && s.mem.chvAt c (32 * w + j)) := by
  rw [State.memRead, locate_chv c hw, State.readAt, packChannel_bit _ _ _ _ hj]

theorem memRead_che (s : State) (c : Fin 7) {w j : Nat} (hw : w < 64) (hj : j < 32) :
    (s.memRead (channelOffset 0x5000 c w)).getLsbD j =
      (decide (32 * w + j < s.cfg.nmax) && s.mem.cheAt c (32 * w + j)) := by
  rw [State.memRead, locate_che c hw, State.readAt, packChannel_bit _ _ _ _ hj]

theorem memRead_reserved (s : State) {off : Offset} (halign : off.toNat % 4 = 0) (h : reservedOffset off) :
    s.memRead off = 0 := by
  rw [State.memRead, locate_reserved halign h, State.readAt]

end Sys2Proof.Machine

namespace Sys2Proof.Proofs

open Sys2Proof.Machine

/-- Settles O15: each location is found by the address map, and its layout is read as a number. -/
theorem hostReadsTheAddressMap : Obligations.HostReadsTheAddressMap := by
  intro s
  have hreg {n : Nat} (x : BitVec n) (hn : n ≤ 32) : (x.setWidth 32).toNat = x.toNat := BitVec.toNat_setWidth_of_le hn
  have hid (h : s.cfg.Valid) : (s.memRead 0x002C).toNat =
      s.cfg.nmax + 65536 * 7 + 1048576 * 4 + 16777216 * 3 + 268435456 * 1 := by
    rw [memRead_id, toNat_idWord h]
    omega
  exact ⟨rfl, toNat_statusWord s.status, hreg s.regD (by decide), toNat_triWord s.regC, hreg s.regS (by decide),
    hreg s.regP (by decide), hreg s.regQ (by decide), hreg s.regCC (by decide), hreg s.regN (by decide),
    hreg s.chstat (by decide), rfl, hid, fun _ hk => ⟨memRead_dib s hk, memRead_cwb s hk, memRead_dob s hk⟩,
    fun c _ _ hw hj => ⟨memRead_chv s c hw hj, memRead_che s c hw hj⟩, fun _ => memRead_reserved s⟩

end Sys2Proof.Proofs
end

section
/-! SUPPORT. What a host write stores (R51, R52, R58, R59), location by location, and that storing it again changes
nothing (R60). -/

namespace Sys2Proof.Machine

open Sys2Proof.Claims

/-- A write to a location other than `CMD` stores there and nothing else. -/
theorem memWrite_at {s : State} {off : Offset} {l : Location} (v : Word) (hl : locate off = l) (hcmd : l ≠ .cmd) :
    s.memWrite off v = .next (s.writeAt v l) := by
  subst hl
  exact memWrite_store v hcmd

/-- The fields a codeword is stored from, as numbers (R58). -/
theorem triWord_ofWord (v : Word) :
    TriWord.ofWord v = { v := BitVec.ofNat 7 v.toNat, e := BitVec.ofNat 7 (v.toNat / 256) } :=
  congrArg (TriWord.mk _) (congrArg (BitVec.ofNat 7) (Nat.shiftRight_eq_div_pow v.toNat 8))

theorem withMem_withMem (s : State) (m m' : Memory) : (s.withMem m).withMem m' = s.withMem m' := rfl

theorem writeAt_dib (s : State) (v : Word) (k : Nat) :
    s.writeAt v (.dib k) = s.withMem (if k < s.cfg.nmax then s.mem.setDib k (v.extractLsb' 0 4) else s.mem) := by
  by_cases hk : k < s.cfg.nmax
  · simp only [State.writeAt, State.hasEntry, hk, decide_true, if_true]
  · simp only [State.writeAt, State.hasEntry, hk, decide_false, if_false, Bool.false_eq_true]
    rfl

theorem writeAt_cwb (s : State) (v : Word) (k : Nat) :
    s.writeAt v (.cwb k) = s.withMem (if k < s.cfg.nmax then s.mem.setCwb k (TriWord.ofWord v) else s.mem) := by
  by_cases hk : k < s.cfg.nmax
  · simp only [State.writeAt, State.hasEntry, hk, decide_true, if_true]
  · simp only [State.writeAt, State.hasEntry, hk, decide_false, if_false, Bool.false_eq_true]
    rfl

theorem memWrite_dib (s : State) (v : Word) {k : Nat} (hk : k < 1024) :
    ∃ m : Memory, s.memWrite (wordOffset 0x1000 k) v = .next { s with mem := m } ∧
      m.cwb = s.mem.cwb ∧ m.dob = s.mem.dob ∧ m.chv = s.mem.chv ∧ m.che = s.mem.che ∧
      ∀ j, m.dibAt j = if j = k ∧ k < s.cfg.nmax then BitVec.ofNat 4 v.toNat else s.mem.dibAt j := by
  refine ⟨_, (memWrite_at v (locate_dib hk) nofun).trans (congrArg _ (writeAt_dib s v k)), ?_⟩
  split
  · refine ⟨rfl, rfl, rfl, rfl, fun j => ?_⟩
    rw [dibAt_setDib]
    simp only [*, and_true]
    rfl
  · simp [*]

theorem memWrite_cwb (s : State) (v : Word) {k : Nat} (hk : k < 1024) :
    ∃ m : Memory, s.memWrite (wordOffset 0x2000 k) v = .next { s with mem := m } ∧
      m.dib = s.mem.dib ∧ m.dob = s.mem.dob ∧ m.chv = s.mem.chv ∧ m.che = s.mem.che ∧
      ∀ j, m.cwbAt j = if j = k ∧ k < s.cfg.nmax
        then { v := BitVec.ofNat 7 v.toNat, e := BitVec.ofNat 7 (v.toNat / 256) } else s.mem.cwbAt j := by
  refine ⟨_, (memWrite_at v (locate_cwb hk) nofun).trans (congrArg _ (writeAt_cwb s v k)), ?_⟩
  split
  · refine ⟨rfl, rfl, rfl, rfl, fun j => ?_⟩
    rw [cwbAt_setCwb, triWord_ofWord]
    simp only [*, and_true]
  · simp [*]

/-- Word `w` of a channel holds the positions `k` with `k div 32 = w`, each at bit `k mod 32` (R59). -/
theorem ite_position_in_word (p q : Prop) [Decidable p] [Decidable q] (w k : Nat) (v : Word) (old : Bool) :
    (if p ∧ 32 * w ≤ k ∧ k < 32 * w + 32 ∧ q then v.getLsbD (k - 32 * w) else old) =
      if p ∧ k / 32 = w ∧ q then v.getLsbD (k % 32) else old := by
  by_cases hw : k / 32 = w
  · have hin : 32 * w ≤ k ∧ k < 32 * w + 32 := by omega
    have hbit : k - 32 * w = k % 32 := by omega
    simp only [hw, hin, hbit, true_and]
  · have hout : ¬ (32 * w ≤ k ∧ k < 32 * w + 32) := by omega
    simp only [← and_assoc (a := 32 * w ≤ k), hw, hout, false_and, and_false, if_false]

theorem memWrite_chv (s : State) (v : Word) (c : Fin 7) {w : Nat} (hw : w < 64) :
    ∃ m : Memory, s.memWrite (channelOffset 0x4000 c w) v = .next { s with mem := m } ∧
      m.dib = s.mem.dib ∧ m.cwb = s.mem.cwb ∧ m.dob = s.mem.dob ∧ m.che = s.mem.che ∧
      ∀ (c' : Fin 7) (k : Nat), m.chvAt c' k =
        if c' = c ∧ k / 32 = w ∧ k < s.cfg.nmax then v.getLsbD (k % 32) else s.mem.chvAt c' k :=
  ⟨_, memWrite_at v (locate_chv c hw) nofun, unpackChv_dib .., unpackChv_cwb .., unpackChv_dob .., unpackChv_che ..,
    fun c' k => (unpackChv_chvAt ..).trans (ite_position_in_word (c' = c) (k < s.cfg.nmax) w k v _)⟩

theorem memWrite_che (s : State) (v : Word) (c : Fin 7) {w : Nat} (hw : w < 64) :
    ∃ m : Memory, s.memWrite (channelOffset 0x5000 c w) v = .next { s with mem := m } ∧
      m.dib = s.mem.dib ∧ m.cwb = s.mem.cwb ∧ m.dob = s.mem.dob ∧ m.chv = s.mem.chv ∧
      ∀ (c' : Fin 7) (k : Nat), m.cheAt c' k =
        if c' = c ∧ k / 32 = w ∧ k < s.cfg.nmax then v.getLsbD (k % 32) else s.mem.cheAt c' k :=
  ⟨_, memWrite_at v (locate_che c hw) nofun, unpackChe_dib .., unpackChe_cwb .., unpackChe_dob .., unpackChe_chv ..,
    fun c' k => (unpackChe_cheAt ..).trans (ite_position_in_word (c' = c) (k < s.cfg.nmax) w k v _)⟩

theorem memWrite_dob (s : State) (v : Word) {k : Nat} (hk : k < 1024) :
    s.memWrite (wordOffset 0x3000 k) v = .next s := memWrite_at v (locate_dob hk) nofun

theorem memWrite_reserved (s : State) (v : Word) {off : Offset} (halign : off.toNat % 4 = 0)
    (h : reservedOffset off) : s.memWrite off v = .next s := memWrite_at v (locate_reserved halign h) nofun

/-! ## Storing twice (R60) -/

theorem store_set_set {α : Type} [Inhabited α] [DecidableEq α] {n : Nat} {b : Store α} (h : Store.wf n b) {k : Nat}
    (hk : k < n) (v : α) : Store.set (Store.set b k v) k v = Store.set b k v := by
  refine store_ext (store_wf_set v (store_wf_set v h hk) hk) (store_wf_set v h hk) fun j => ?_
  rw [store_get_set]
  split
  · subst j
    rw [store_get_set_same]
  · rfl

theorem setDib_setDib {n : Nat} {m : Memory} (h : m.wf n) {k : Nat} (hk : k < n) (v : DataBlock) :
    (m.setDib k v).setDib k v = m.setDib k v :=
  congrArg (fun b => { m with dib := b }) (store_set_set h.1 hk v)

theorem setCwb_setCwb {n : Nat} {m : Memory} (h : m.wf n) {k : Nat} (hk : k < n) (v : TriWord) :
    (m.setCwb k v).setCwb k v = m.setCwb k v :=
  congrArg (fun b => { m with cwb := b }) (store_set_set h.2.1 hk v)

theorem unpackChv_unpackChv {n : Nat} {m : Memory} (h : m.wf n) (c : Fin 7) (w : Nat) (v : Word) :
    unpackChannel n (fun k b m => m.setChv c k b) w v (unpackChannel n (fun k b m => m.setChv c k b) w v m) =
      unpackChannel n (fun k b m => m.setChv c k b) w v m := by
  have hwf {m : Memory} (h : m.wf n) : (unpackChannel n (fun k b m => m.setChv c k b) w v m).wf n :=
    unpackChannel_wf h w v fun _ b _ hk hy => setChv_wf hy c hk b
  refine memory_ext (hwf (hwf h)) (hwf h) (dibAt_congr (unpackChv_dib ..)) (cwbAt_congr (unpackChv_cwb ..))
    (dobAt_congr (unpackChv_dob ..)) (fun c' k => ?_) (cheAt_congr (unpackChv_che ..))
  rw [unpackChv_chvAt, unpackChv_chvAt]
  split <;> rfl

theorem unpackChe_unpackChe {n : Nat} {m : Memory} (h : m.wf n) (c : Fin 7) (w : Nat) (v : Word) :
    unpackChannel n (fun k b m => m.setChe c k b) w v (unpackChannel n (fun k b m => m.setChe c k b) w v m) =
      unpackChannel n (fun k b m => m.setChe c k b) w v m := by
  have hwf {m : Memory} (h : m.wf n) : (unpackChannel n (fun k b m => m.setChe c k b) w v m).wf n :=
    unpackChannel_wf h w v fun _ b _ hk hy => setChe_wf hy c hk b
  refine memory_ext (hwf (hwf h)) (hwf h) (dibAt_congr (unpackChe_dib ..)) (cwbAt_congr (unpackChe_cwb ..))
    (dobAt_congr (unpackChe_dob ..)) (chvAt_congr (unpackChe_chv ..)) (fun c' k => ?_)
  rw [unpackChe_cheAt, unpackChe_cheAt]
  split <;> rfl

/-- Storing the same value twice leaves what storing it once leaves. -/
theorem writeAt_writeAt {s : State} (h : s.mem.wf s.cfg.nmax) (v : Word) (l : Location) :
    (s.writeAt v l).writeAt v l = s.writeAt v l := by
  cases l with
  | dib k =>
    rw [writeAt_dib, writeAt_dib, withMem_withMem, withMem_cfg, withMem_mem]
    split
    · rw [setDib_setDib h ‹_›]
    · rfl
  | cwb k =>
    rw [writeAt_cwb, writeAt_cwb, withMem_withMem, withMem_cfg, withMem_mem]
    split
    · rw [setCwb_setCwb h ‹_›]
    · rfl
  | chv c w =>
    simp only [State.writeAt]
    rw [withMem_withMem, withMem_cfg, withMem_mem, unpackChv_unpackChv h]
  | che c w =>
    simp only [State.writeAt]
    rw [withMem_withMem, withMem_cfg, withMem_mem, unpackChe_unpackChe h]
  | cmd | status | d | c | s | p | q | cc | n | chstat | errcmd | id | dob | reserved => rfl

end Sys2Proof.Machine

namespace Sys2Proof.Proofs

open Sys2Proof.Machine

/-- Settles O16: a register or an entry below `NMAX` takes the fields of the word, and only it. -/
theorem hostWritesRegistersAndEntries : Obligations.HostWritesRegistersAndEntries := by
  intro s v
  have hc : s.memWrite 0x000C v = .next { s with regC := TriWord.ofWord v } := rfl
  rw [triWord_ofWord] at hc
  exact ⟨rfl, hc, rfl, fun _ hk => ⟨memWrite_dib s v hk, memWrite_cwb s v hk⟩⟩

/-- Settles O17: the loop over a channel word's bits stores each at its position below `NMAX`. -/
theorem hostWritesChannelWords : Obligations.HostWritesChannelWords :=
  fun s v c _ hw => ⟨memWrite_chv s v c hw, memWrite_che s v c hw⟩

/-- Settles O18: the locations that store nothing are the read-only registers, `DOB` and what is reserved. -/
theorem hostWritesIgnored : Obligations.HostWritesIgnored := by
  intro s v
  refine ⟨?_, fun _ => memWrite_dob s v, fun _ => memWrite_reserved s v⟩
  simp only [List.forall_mem_cons, List.not_mem_nil, false_implies, implies_true, and_true]
  exact ⟨rfl, rfl, rfl, rfl, rfl, rfl, rfl, rfl⟩

/-- Settles O19: of the aligned offsets only 0 is `CMD`, and storing is idempotent anywhere else. -/
theorem hostWritesIdempotent : Obligations.HostWritesIdempotent := by
  intro s t off v hwf halign hoff h
  have hcmd : locate off ≠ .cmd := fun hl => hoff (locate_eq_cmd halign hl)
  rw [memWrite_store v hcmd] at h
  obtain rfl := Host.Outcome.next.inj h
  rw [memWrite_store v hcmd, writeAt_writeAt hwf]

end Sys2Proof.Proofs
end

section
/-! SUPPORT. An access of a host agent as a step (R54, R57, R61), and the bytes of a word (R55). -/

namespace Sys2Proof.Machine

/-- An access error ends the access, whatever it was to do (R54). -/
theorem hostAccess_fault {agent size : Nat} {off : Offset} {f : Fault} (s : State)
    (h : accessFault agent size off = some f) (go : Offset → Result) :
    hostAccess agent (s.cfg.base + off.toNat) size s go = .fault f := by
  rw [hostAccess, windowOffset_base]
  simp only [h]

theorem accessFault_width (agent : Nat) {size : Nat} (off : Offset) (h : size ≠ 4) :
    accessFault agent size off = some (.accessError agent (.width size) 0) := if_pos h

theorem accessFault_misaligned (agent : Nat) {off : Offset} (h : off.toNat % 4 ≠ 0) :
    accessFault agent 4 off = some (.accessError agent (.misaligned off) 0) := if_pos h

/-- A read or write with an access error ends the run (R54). -/
theorem step_accessFault {s : State} {agent size : Nat} {off : Offset} {v : Word} {rest : List BusEvent} {f : Fault}
    (hbus : s.bus = .read agent (s.cfg.base + off.toNat) size :: rest ∨
      s.bus = .write agent (s.cfg.base + off.toNat) size v :: rest)
    (h : accessFault agent size off = some f) : step s = .fault f := by
  obtain hbus | hbus := hbus
  all_goals
    rw [step_event hbus]
    exact hostAccess_fault { s with bus := rest } h _

theorem step_read {s : State} {agent : Nat} {off : Offset} {rest : List BusEvent} (halign : off.toNat % 4 = 0)
    (hbus : s.bus = .read agent (s.cfg.base + off.toNat) 4 :: rest) :
    step s = .next { s with bus := rest, reply := .data agent (s.memRead off) } := by
  rw [step_event hbus, ← memRead_bus s rest off]
  exact hostAccess_aligned agent { s with bus := rest } off halign _

theorem step_write {s : State} {agent : Nat} {off : Offset} {v : Word} {rest : List BusEvent}
    (halign : off.toNat % 4 = 0) (hbus : s.bus = .write agent (s.cfg.base + off.toNat) 4 v :: rest) :
    step s = ({ s with bus := rest, reply := .written agent } : State).memWrite off v := by
  rw [step_event hbus]
  exact hostAccess_aligned agent { s with bus := rest } off halign _

/-! ## Bytes (R55) -/

/-- The mask of an aligned offset clears the two low bits. -/
theorem toNat_and_alignMask (off : Offset) : (off &&& 0xFFFC#16).toNat = off.toNat - off.toNat % 4 := by
  have hmask : off &&& 0xFFFC#16 = off >>> 2 <<< 2 := by
    refine BitVec.eq_of_getLsbD_eq fun i hi => ?_
    have hbit : ∀ i < 16, (0xFFFC#16).getLsbD i = decide (2 ≤ i) := by decide
    rw [BitVec.getLsbD_and, hbit i hi, BitVec.getLsbD_shiftLeft, BitVec.getLsbD_ushiftRight]
    by_cases h2 : 2 ≤ i
    · simp [h2, hi, Nat.not_lt.mpr h2]
    · simp [h2, Nat.not_le.mp h2]
  have := off.isLt
  rw [hmask, BitVec.toNat_shiftLeft, BitVec.toNat_ushiftRight, Nat.shiftLeft_eq, Nat.shiftRight_eq_div_pow]
  omega

/-- Byte `i` of an aligned word stands at the word's offset plus `i`. -/
theorem word_and_index_of_byte {off : Offset} {i : Nat} (halign : off.toNat % 4 = 0) (hi : i < 4) :
    (off + BitVec.ofNat 16 i) &&& 0xFFFC#16 = off ∧ (off + BitVec.ofNat 16 i).toNat % 4 = i := by
  have := off.isLt
  have hsum : (off + BitVec.ofNat 16 i).toNat = off.toNat + i := by
    rw [BitVec.toNat_add, BitVec.toNat_ofNat]
    omega
  refine ⟨BitVec.eq_of_toNat_eq ?_, by omega⟩
  rw [toNat_and_alignMask]
  omega

end Sys2Proof.Machine

namespace Sys2Proof.Proofs

open Sys2Proof.Machine

/-- Settles O7: offset 0 is `CMD`, and with no fault pending a word that decodes is executed. -/
theorem stepRunsDecodedCommand : Obligations.StepRunsDecodedCommand := by
  intro s agent w rest i hbus herr hdecode
  rw [step_write (off := 0#16) rfl hbus, memWrite_cmd]
  exact perform_command herr hdecode

/-- Settles O9: an aligned 32-bit access in the window goes to its offset. -/
theorem stepPerformsHostAccess : Obligations.StepPerformsHostAccess :=
  fun _ _ _ _ _ halign => ⟨step_read halign, step_write halign⟩

/-- Settles O10: the width is checked before the alignment. -/
theorem accessErrorStopsTheRun : Obligations.AccessErrorStopsTheRun := by
  intro s agent size off v rest hbus
  refine ⟨fun hsize => step_accessFault hbus (accessFault_width agent off hsize), ?_⟩
  rintro rfl halign
  exact step_accessFault hbus (accessFault_misaligned agent halign)

/-- Settles O20: the four bytes of a word share its aligned offset. -/
theorem bytesAreLittleEndian : Obligations.BytesAreLittleEndian := by
  intro s off i halign hi
  obtain ⟨hword, hbyte⟩ := word_and_index_of_byte halign hi
  rw [State.hostByte, hword, hbyte]

end Sys2Proof.Proofs
end

section
/-! SUPPORT. The decoder follows the table (R75, R78): no two rows share an `OPC`, so the row that admits a word is the
row the decoder finds; and every command has a row that admits its word. -/

namespace Sys2Proof

open Claims

/-- A search finds the one element that passes the test. -/
theorem find?_eq_some_of_unique {α : Type} {l : List α} {p : α → Bool} {a : α} (ha : a ∈ l) (hp : p a = true)
    (huniq : ∀ b ∈ l, p b = true → b = a) : l.find? p = some a := by
  cases h : l.find? p with
  | none => exact absurd hp (List.find?_eq_none.mp h a ha)
  | some b => rw [huniq b (List.mem_of_find?_eq_some h) (List.find?_some h)]

/-- Elements of a list that a key tells apart are equal when their keys are. -/
theorem eq_of_nodup_map {α β : Type} {f : α → β} {l : List α} (h : (l.map f).Nodup) {a b : α} (ha : a ∈ l) (hb : b ∈ l)
    (hkey : f a = f b) : a = b := by
  have hne : l.Pairwise fun x y => f x ≠ f y := List.pairwise_map.mp h
  exact List.Pairwise.forall_of_forall_of_flip (R := fun x y => f x = f y → x = y) (fun _ _ _ => rfl)
    (hne.imp fun hxy heq => absurd heq hxy) (hne.imp fun hxy heq => absurd heq.symm hxy) ha hb hkey

/-! ## From a word to its row -/

/-- "The rows' `OPC` values are distinct" (R78). -/
theorem opTable_opc_nodup : (opTable.map fun r => opcField r.pattern).Nodup := by decide

/-- Two rows that match one word are the same row. -/
theorem row_unique {r q : OpRow} (hr : r ∈ opTable) (hq : q ∈ opTable) {w : Word} (hrw : r.admits w = true)
    (hqw : q.admits w = true) : q = r :=
  eq_of_nodup_map opTable_opc_nodup hq hr ((opc_of_admits hq hqw).symm.trans (opc_of_admits hr hrw))

/-- The rows that match a word all have its `OPC`, and no two rows share one. -/
theorem length_admitting_rows_le_one (w : Word) : (opTable.filter fun r => r.admits w).length ≤ 1 := by
  have hnodup : ((opTable.filter fun r => r.admits w).map fun r => opcField r.pattern).Nodup :=
    opTable_opc_nodup.sublist (List.filter_sublist.map _)
  have hopc : ∀ o ∈ (opTable.filter fun r => r.admits w).map fun r => opcField r.pattern, o = opcField w := by
    intro o ho
    obtain ⟨r, hr, rfl⟩ := List.mem_map.mp ho
    obtain ⟨hmem, hadmits⟩ := List.mem_filter.mp hr
    exact (opc_of_admits hmem hadmits).symm
  rw [List.eq_replicate_of_mem hopc, List.nodup_replicate, List.length_map] at hnodup
  exact hnodup

/-- The decoder answers the command of the row that admits the word. -/
theorem decode_of_admits {r : OpRow} (hr : r ∈ opTable) {w : Word} (h : r.admits w = true) :
    decode w = .command (r.build (lenField w).toNat (argField w).toNat) := by
  rw [decode, find?_eq_some_of_unique (p := (OpRow.admits · w)) hr h fun q hq => row_unique hr hq h]

/-- A word no row admits is illegal, for one of the two reasons of R76. -/
theorem decode_of_no_row {w : Word} (h : ∀ r ∈ opTable, r.admits w = false) : ∃ why, decode w = .illegal why := by
  rw [decode, List.find?_eq_none.mpr fun r hr => by simp [h r hr]]
  dsimp only
  split <;> exact ⟨_, rfl⟩

/-- A word is illegal iff no row admits it (R76). -/
theorem exists_illegal_iff_no_row (w : Word) :
    (∃ why, decode w = .illegal why) ↔ ¬∃ r ∈ opTable, r.admits w = true := by
  constructor
  · rintro ⟨why, hwhy⟩ ⟨r, hr, hw⟩
    rw [decode_of_admits hr hw] at hwhy
    cases hwhy
  · exact fun h => decode_of_no_row fun r hr => eq_false_of_ne_true fun hw => h ⟨r, hr, hw⟩

/-- A decoded command comes from a row that admits the word. -/
theorem exists_row_of_decode {w : Word} {i : Instr} (h : decode w = .command i) :
    ∃ r ∈ opTable, r.admits w = true ∧ r.build (lenField w).toNat (argField w).toNat = i := by
  have hrow : ∃ r ∈ opTable, r.admits w = true := by
    refine Classical.byContradiction fun hnone => ?_
    obtain ⟨why, hwhy⟩ := (exists_illegal_iff_no_row w).mpr hnone
    rw [hwhy] at h
    cases h
  obtain ⟨r, hr, hw⟩ := hrow
  rw [decode_of_admits hr hw] at h
  exact ⟨r, hr, hw, Decoded.command.inj h⟩

/-- A row builds a well-formed command from operands that fit their fields. -/
theorem build_wellFormed {r : OpRow} (hr : r ∈ opTable) {len arg : Nat} (hlen : len ≤ 255) (harg : arg ≤ 65535) :
    (r.build len arg).WellFormed := by
  revert r
  simp [opTable, Instr.WellFormed, Instr.wf, hlen, harg]

theorem wellFormed_of_decode {w : Word} {i : Instr} (h : decode w = .command i) : i.WellFormed := by
  obtain ⟨r, hr, -, rfl⟩ := exists_row_of_decode h
  have hlen := (lenField w).isLt
  have harg := (argField w).isLt
  exact build_wellFormed hr (by omega) (by omega)

/-! ## From a command to its row -/

/-- A row with `LEN` free admits the word of every command with its `OPC` and no `ARG`. -/
theorem admits_encode_len {n : String} {p : Word} {b : Nat → Nat → Instr} {i : Instr}
    (hp : lenField p = 0 ∧ argField p = 0) (hopc : i.opc = opcField p) (harg : i.arg = 0) :
    (OpRow.mk n p 0xFF00FFFF b).admits (encode i) = true := by
  rw [admits_len _ _ _ _ hp.1, hp.2]
  simp [encode, hopc, harg]

/-- A row with `ARG` free admits the word of every command with its `OPC` and no `LEN`. -/
theorem admits_encode_arg {n : String} {p : Word} {b : Nat → Nat → Instr} {i : Instr}
    (hp : lenField p = 0 ∧ argField p = 0) (hopc : i.opc = opcField p) (hlen : i.len = 0) :
    (OpRow.mk n p 0xFFFF0000 b).admits (encode i) = true := by
  rw [admits_arg _ _ _ _ hp.2, hp.1]
  simp [encode, hopc, hlen]

/-- Every command has a row, which admits the command's word and builds the command from its operands. -/
theorem exists_row (i : Instr) : ∃ r ∈ opTable, r.admits (encode i) = true ∧ r.build i.len i.arg = i := by
  cases i with
  | nop => exact ⟨opTable[0], List.getElem_mem _, by decide, rfl⟩
  | mvg => exact ⟨opTable[1], List.getElem_mem _, by decide, rfl⟩
  | mvh => exact ⟨opTable[2], List.getElem_mem _, by decide, rfl⟩
  | clrerr => exact ⟨opTable[3], List.getElem_mem _, by decide, rfl⟩
  | enc _ => exact ⟨opTable[4], List.getElem_mem _, admits_encode_len (by decide) rfl rfl, rfl⟩
  | dec _ => exact ⟨opTable[5], List.getElem_mem _, admits_encode_len (by decide) rfl rfl, rfl⟩
  | edec => exact ⟨opTable[6], List.getElem_mem _, by decide, rfl⟩
  | ilv => exact ⟨opTable[7], List.getElem_mem _, by decide, rfl⟩
  | ilv1 _ => exact ⟨opTable[8], List.getElem_mem _, admits_encode_arg (by decide) rfl rfl, rfl⟩
  | dil _ => exact ⟨opTable[9], List.getElem_mem _, admits_encode_arg (by decide) rfl rfl, rfl⟩
  | dilb => exact ⟨opTable[10], List.getElem_mem _, by decide, rfl⟩
  | chrdy _ => exact ⟨opTable[11], List.getElem_mem _, admits_encode_arg (by decide) rfl rfl, rfl⟩
  | chlost _ => exact ⟨opTable[12], List.getElem_mem _, admits_encode_arg (by decide) rfl rfl, rfl⟩
  | bclr => exact ⟨opTable[13], List.getElem_mem _, by decide, rfl⟩
  | encb => exact ⟨opTable[14], List.getElem_mem _, by decide, rfl⟩
  | decb => exact ⟨opTable[15], List.getElem_mem _, by decide, rfl⟩

/-- The word of a well-formed command decodes to it. -/
theorem decode_encode {i : Instr} (h : i.WellFormed) : decode (encode i) = .command i := by
  obtain ⟨r, hr, hadmits, hbuild⟩ := exists_row i
  obtain ⟨-, hlen, harg⟩ := Laws.EncodedFields.of_instr i h
  rw [decode_of_admits hr hadmits, hlen, harg, hbuild]

/-! ## The illegal words -/

/-- A row admits a word iff it does so field by field. -/
theorem admits_iff_fields (r : OpRow) (w : Word) :
    r.admits w = true ↔ opcField w &&& opcField r.mask = opcField r.pattern ∧
      lenField w &&& lenField r.mask = lenField r.pattern ∧ argField w &&& argField r.mask = argField r.pattern := by
  rw [OpRow.admits, beq_iff_eq, word_eq_iff_fields, opcField_and, lenField_and, argField_and]

/-- The rows match the words whose fields R74 and R75 allow: read field by field they are the alternatives of
`legalFields`, which groups them by the fields that must be 0. -/
theorem exists_row_iff_legalFields (w : Word) :
    (∃ r ∈ opTable, r.admits w = true) ↔ legalFields (opcField w) (lenField w) (argField w) = true := by
  simp only [admits_iff_fields]
  have hopc : ∀ v : BitVec 8, v &&& 255#8 = v := opc_allOnes
  have harg : ∀ v : BitVec 16, v &&& 65535#16 = v := arg_allOnes
  generalize opcField w = o, lenField w = l, argField w = a
  simp only [opTable, BitVec.ofNat_eq_ofNat, List.mem_cons, List.not_mem_nil, or_false, opcField, lenField,
    argField, exists_eq_or_imp, BitVec.reduceExtractLsb', hopc, BitVec.extractLsb'_zero, harg, BitVec.and_zero,
    true_and, and_true, exists_eq_left, legalFields, Bool.or_eq_true, Bool.and_eq_true, beq_iff_eq]
  grind

end Sys2Proof

namespace Sys2Proof.Proofs

open Sys2Proof.Machine Sys2Proof.Claims

/-- Settles O2: the row of a command admits its word, and no other row does. -/
theorem decodeOfEncode : Obligations.DecodeOfEncode := fun _ => decode_encode

/-- Settles O3: every row builds a well-formed command, whose word is the word decoded. -/
theorem encodeOfDecode : Obligations.EncodeOfDecode := fun _ _ h => ⟨wellFormed_of_decode h, encode_of_decode h⟩

/-- Settles O4: no row admits a word whose fields R75 does not allow, and an illegal word raises its fault. -/
theorem illegalWordsFault : Obligations.IllegalWordsFault := by
  intro w
  have hillegal :
      (∃ why, decode w = .illegal why) ↔ legalFields (opcField w) (lenField w) (argField w) = false := by
    rw [exists_illegal_iff_no_row, exists_row_iff_legalFields, Bool.not_eq_true]
  refine ⟨hillegal, fun hfields s herr => ?_⟩
  obtain ⟨why, hwhy⟩ := hillegal.mpr hfields
  exact perform_illegal herr hwhy

/-- Settles O5: the rows' `OPC` values are distinct, and every mask includes the `OPC`. -/
theorem atMostOneRowMatches : Obligations.AtMostOneRowMatches := by
  intro w
  refine ⟨length_admitting_rows_le_one w, fun r hr h => ?_, fun h => ?_⟩
  · exact decode_of_admits hr (beq_iff_eq.mpr h)
  · exact decode_of_no_row fun r hr => beq_eq_false_iff_ne.mpr (h r hr)

/-- Settles O1: the decoder, run on the seventeen words. -/
theorem specWordsDecode : Obligations.SpecWordsDecode := by
  unfold Obligations.SpecWordsDecode
  decide

end Sys2Proof.Proofs
end

section
/-! SUPPORT. The assembler reads a command line by the table (R79): a number's text is its number, a mnemonic names its
row, and a command line that is taken is the word of a well-formed command. -/

namespace Sys2Proof.Machine

open Claims

/-! ## Numbers -/

/-- What a line needs of an operand: it is one word, and it is read as the number `n`. -/
structure ReadsAs (t : List Char) (n : Nat) : Prop where
  nonempty : t ≠ []
  oneWord : ∀ ch ∈ t, isSeparator ch = false
  value : numeral t = some n

/-- The digits of `n` in a base after `z` zeros, each through `f` (the identity, or upper case). -/
def digitText (z base : Nat) (f : Char → Char) (n : Nat) : List Char :=
  List.replicate z '0' ++ (Nat.toDigits base n).map f

theorem digitText_ne_nil (z base : Nat) (f : Char → Char) (n : Nat) : digitText z base f n ≠ [] := by
  simp [digitText, Nat.toDigits_ne_nil]

/-- A property of `'0'` and of every digit's character holds of each character of the text. -/
theorem forall_mem_digitText {P : Char → Prop} {base : Nat} {f : Char → Char} (hb : 1 < base) (h0 : P '0')
    (hf : ∀ d, d < base → P (f d.digitChar)) (z n : Nat) : ∀ ch ∈ digitText z base f n, P ch := by
  intro ch hch
  obtain hch | hch := List.mem_append.mp hch
  · rw [List.eq_of_mem_replicate hch]
    exact h0
  · obtain ⟨c, hc, rfl⟩ := List.mem_map.mp hch
    obtain ⟨d, hd, rfl⟩ := mem_toDigits hb n c hc
    exact hf d hd

/-- The text is read back in its base. -/
theorem digitsFrom_digitText {base : Nat} {f : Char → Char} (hb : 1 < base)
    (hf : ∀ d, d < base → digitValue base (f d.digitChar) = some d) (z n : Nat) :
    digitsFrom base 0 (digitText z base f n) = some n := by
  rw [digitText, digitsFrom_replicate_zero base (by omega)]
  simpa [digitsFrom] using digitsFrom_toDigits hb f hf n []

theorem readsAs_decimal (z n : Nat) : ReadsAs (digitText z 10 id n) n where
  nonempty := digitText_ne_nil _ _ _ _
  oneWord := forall_mem_digitText (by decide) (by decide) (by decide) z n
  value := by
    rw [numeral_decimal (digitText_ne_nil _ _ _ _) (forall_mem_digitText (by decide) (by decide) (by decide) z n)]
    exact digitsFrom_digitText (by decide) digitValue_digitChar_ten z n

theorem readsAs_hex {f : Char → Char} (hsep : ∀ d, d < 16 → isSeparator (f d.digitChar) = false)
    (hval : ∀ d, d < 16 → digitValue 16 (f d.digitChar) = some d) (z n : Nat) :
    ReadsAs ('0' :: 'x' :: digitText z 16 f n) n where
  nonempty := List.cons_ne_nil _ _
  oneWord := List.forall_mem_cons.mpr ⟨by decide, List.forall_mem_cons.mpr
    ⟨by decide, forall_mem_digitText (by decide) (by decide) hsep z n⟩⟩
  value := by
    rw [numeral_hex (digitText_ne_nil _ _ _ _)]
    exact digitsFrom_digitText (by decide) hval z n

/-- Every text of a number that R79 admits is read as the number. -/
theorem readsAs_of_mem_numberTexts {z n : Nat} {text : String} (h : text ∈ numberTexts z n) :
    ReadsAs text.toList n := by
  simp only [numberTexts, List.mem_cons, List.not_mem_nil, or_false] at h
  obtain rfl | rfl | rfl := h
  · simpa [digitText] using readsAs_decimal z n
  · simpa [digitText] using readsAs_hex (f := id) (by decide) digitValue_digitChar_sixteen z n
  · simpa [digitText] using readsAs_hex (f := Char.toUpper) (by decide) digitValue_toUpper_sixteen z n

/-! ## Mnemonics -/

theorem opTable_mnemonic_nodup : (opTable.map fun r => r.mnemonic.toList).Nodup := by decide +kernel

/-- A mnemonic is a word of a line. -/
theorem mnemonic_oneWord :
    ∀ r ∈ opTable, r.mnemonic.toList ≠ [] ∧ ∀ ch ∈ r.mnemonic.toList, isSeparator ch = false := by
  simp [opTable, isSeparator]

/-- A mnemonic of the table names its row. -/
theorem assembleCommand_mnemonic {r : OpRow} (hr : r ∈ opTable) (operand : Option Nat) :
    assembleCommand r.mnemonic.toList operand = (rowCommand r operand).bind assembleInstr := by
  have hfind : opTable.find? (fun q => q.mnemonic.toList == r.mnemonic.toList) = some r :=
    find?_eq_some_of_unique hr (beq_self_eq_true _) fun q hq h =>
      eq_of_nodup_map opTable_mnemonic_nodup hq hr (beq_iff_eq.mp h)
  rw [assembleCommand, hfind, Option.bind_some]

/-- A mnemonic, a space and a number's text are the command of the mnemonic's row with the number as its operand. -/
theorem assemble_mnemonic_operand {r : OpRow} (hr : r ∈ opTable) {head text : String} {n : Nat}
    (hhead : head.toList = r.mnemonic.toList ++ [' ']) (htext : ReadsAs text.toList n) :
    assemble (head ++ text) = ((rowCommand r (some n)).bind assembleInstr).map .command := by
  have hline : (head ++ text).toList = r.mnemonic.toList ++ ' ' :: text.toList := by simp [hhead]
  obtain ⟨hm0, hm⟩ := mnemonic_oneWord r hr
  rw [assemble_operand hline hm htext.oneWord hm0 htext.nonempty, htext.value, Option.bind_some,
    assembleCommand_mnemonic hr]

/-- A command whose operand field holds the numbers up to `max` is its word with such an operand, and else refused. -/
theorem assemble_operandLine {r : OpRow} (hr : r ∈ opTable) {head text : String} {n max : Nat} {i : Instr}
    (hhead : head.toList = r.mnemonic.toList ++ [' ']) (hi : rowCommand r (some n) = some i)
    (hwf : i.wf = decide (n ≤ max)) (htext : ReadsAs text.toList n) :
    assemble (head ++ text) = operandLine max n i := by
  rw [assemble_mnemonic_operand hr hhead htext, hi, Option.bind_some, assembleInstr, operandLine, hwf]
  by_cases h : n ≤ max <;> simp [h]

/-- The ten commands without an operand, each before its space: their rows leave no field free. -/
theorem exists_row_without_operand :
    ∀ name ∈ ["NOP ", "MVG ", "MVH ", "CLRERR ", "EDEC ", "ILV ", "DILB ", "BCLR ", "ENCB ", "DECB "],
      ∃ r ∈ opTable, name.toList = r.mnemonic.toList ++ [' '] ∧ lenField r.mask ≠ 0 ∧ argField r.mask ≠ 0 := by
  decide +kernel

/-- A row that leaves no field free takes no operand. -/
theorem rowCommand_some_of_fixed {r : OpRow} (hl : lenField r.mask ≠ 0) (ha : argField r.mask ≠ 0) (n : Nat) :
    rowCommand r (some n) = none := by
  rw [rowCommand, if_neg hl, if_neg ha]

/-! ## Lines that are taken -/

/-- A command line is a mnemonic with or without an operand. -/
theorem exists_assembleCommand {line : String} {w : Word} (h : assemble line = some (.command w)) :
    ∃ mnemonic operand, assembleCommand mnemonic operand = some w := by
  unfold assemble at h
  split at h
  case h_1 | h_2 =>
    obtain ⟨off, -, hoff⟩ := Option.bind_eq_some_iff.mp h
    simp at hoff
  case h_3 mnemonic _ => exact ⟨mnemonic, none, by simpa using h⟩
  case h_4 mnemonic operand _ =>
    obtain ⟨n, -, hn⟩ := Option.bind_eq_some_iff.mp h
    exact ⟨mnemonic, some n, by simpa using hn⟩
  case h_5 => cases h

/-- What the assembler gives a command is the word of a well-formed command. -/
theorem exists_instr_of_assembleCommand {mnemonic : List Char} {operand : Option Nat} {w : Word}
    (h : assembleCommand mnemonic operand = some w) : ∃ i : Instr, i.WellFormed ∧ w = encode i := by
  obtain ⟨r, -, hr⟩ := Option.bind_eq_some_iff.mp h
  obtain ⟨i, -, hi⟩ := Option.bind_eq_some_iff.mp hr
  rw [assembleInstr] at hi
  split at hi
  case isTrue hwf => exact ⟨i, hwf, (Option.some.inj hi).symm⟩
  case isFalse => cases hi

end Sys2Proof.Machine

namespace Sys2Proof.Proofs

open Sys2Proof.Machine Sys2Proof.Claims

/-- Settles O6: a line with an operand goes by its row; the bare mnemonics are twelve lines and four refused ones; and a
line that is taken is the word of a well-formed command. -/
theorem assembledLinesDecode : Obligations.AssembledLinesDecode := by
  refine ⟨fun z n text htext => ?_, by decide +kernel, by decide +kernel, fun line w h => ?_⟩
  · have hreads := readsAs_of_mem_numberTexts htext
    refine ⟨?_, ?_, ?_, ?_, ?_, ?_, ?_⟩
    · exact assemble_operandLine (r := opTable[4]) (List.getElem_mem _) (by decide +kernel) rfl rfl hreads
    · exact assemble_operandLine (r := opTable[5]) (List.getElem_mem _) (by decide +kernel) rfl rfl hreads
    · exact assemble_operandLine (r := opTable[8]) (List.getElem_mem _) (by decide +kernel) rfl rfl hreads
    · exact assemble_operandLine (r := opTable[9]) (List.getElem_mem _) (by decide +kernel) rfl rfl hreads
    · exact assemble_operandLine (r := opTable[11]) (List.getElem_mem _) (by decide +kernel) rfl rfl hreads
    · exact assemble_operandLine (r := opTable[12]) (List.getElem_mem _) (by decide +kernel) rfl rfl hreads
    · intro name hname
      obtain ⟨r, hr, hhead, hl, ha⟩ := exists_row_without_operand name hname
      rw [assemble_mnemonic_operand hr hhead hreads, rowCommand_some_of_fixed hl ha]
      rfl
  · obtain ⟨m, operand, hw⟩ := exists_assembleCommand h
    obtain ⟨i, hi, rfl⟩ := exists_instr_of_assembleCommand hw
    exact ⟨i, hi, rfl, decode_encode hi⟩

end Sys2Proof.Proofs
end

section
/-! SUPPORT. The mod-2 product (R102): the parity of a row, linear in the vector, and the sum of the columns the vector
selects; then the encode and syndrome functions (R103 to R106) as cases of it. -/

namespace Sys2Proof.Machine

open Claims

/-! ## Sums mod 2 -/

theorem countUpTo_congr {f g : Nat → Bool} {n : Nat} (h : ∀ j, j < n → f j = g j) :
    countUpTo f n = countUpTo g n := by
  induction n with
  | zero => rfl
  | succ n ih => rw [countUpTo, countUpTo, ih fun j hj => h j (Nat.lt_succ_of_lt hj), h n (Nat.lt_succ_self n)]

/-- A sum mod 2 is 1 iff oddly many of its terms are. -/
theorem xorUpTo_eq_odd_countUpTo (f : Nat → Bool) (n : Nat) :
    xorUpTo f n = decide (countUpTo f n % 2 = 1) := by
  induction n with
  | zero => rfl
  | succ n ih =>
    rw [xorUpTo, countUpTo, ih]
    cases f n with
    | false => simp
    | true => rcases Nat.mod_two_eq_zero_or_one (countUpTo f n) with h | h <;> simp [h, Nat.add_mod]

/-- The sum of two families is the sum of their sums. -/
theorem xorUpTo_xor (f g : Nat → Bool) (n : Nat) :
    xorUpTo (fun j => f j ^^ g j) n = (xorUpTo f n ^^ xorUpTo g n) := by
  induction n with
  | zero => rfl
  | succ n ih => simp only [xorUpTo, ih, Bool.xor_assoc, Bool.xor_left_comm]

/-- A sum with one term that can be 1 is that term. -/
theorem xorUpTo_and_eq (f : Nat → Bool) (j n : Nat) :
    xorUpTo (fun k => f k && decide (j = k)) n = (decide (j < n) && f j) := by
  induction n with
  | zero => simp [xorUpTo]
  | succ n ih =>
    rw [xorUpTo, ih]
    by_cases h : j = n
    · simp [h]
    · have hlt : j < n + 1 ↔ j < n := by omega
      simp [h, hlt]

/-! ## The product (R102) -/

section Product

variable (M : BitMatrix) (m : Nat) {n : Nat}

theorem getLsbD_mulVec (v : BitVec n) {i : Nat} (hi : i < m) :
    (M.mulVec m v).getLsbD i = xorUpTo (fun j => M.entry i j && v.getLsbD j) n := by
  rw [BitMatrix.mulVec, getLsbD_ofBits, dif_pos hi]

theorem getLsbD_row (i : Nat) {j : Nat} (hj : j < n) : (M.row n i).getLsbD j = M.entry i j := by
  rw [BitMatrix.row, getLsbD_ofBits, dif_pos hj]

theorem getLsbD_column (j : Nat) {i : Nat} (hi : i < m) : (M.column m j).getLsbD i = M.entry i j := by
  rw [BitMatrix.column, getLsbD_ofBits, dif_pos hi]

/-- The bits of a masked row are the terms of the product's sum. -/
theorem popcount_row_and (v : BitVec n) (i : Nat) :
    popcount (M.row n i &&& v) = countUpTo (fun j => M.entry i j && v.getLsbD j) n :=
  countUpTo_congr fun j hj => by rw [BitVec.getLsbD_and, getLsbD_row M i hj]

/-- The product is linear in the vector. -/
theorem mulVec_xor (a b : BitVec n) : M.mulVec m (a ^^^ b) = M.mulVec m a ^^^ M.mulVec m b := by
  apply BitVec.eq_of_getLsbD_eq
  intro i hi
  simp only [BitVec.getLsbD_xor, getLsbD_mulVec _ _ _ hi, Bool.and_xor_distrib_left, xorUpTo_xor]

/-- The product is the mod-2 sum of the columns the vector selects. -/
theorem mulVec_eq_sum_columns (v : BitVec n) :
    M.mulVec m v = forUpTo (fun j sum => sum ^^^ if v.getLsbD j then M.column m j else 0) n 0 := by
  apply BitVec.eq_of_getLsbD_eq
  intro i hi
  rw [getLsbD_mulVec M m v hi]
  generalize v.getLsbD = bit
  clear v
  induction n with
  | zero => simp [xorUpTo]
  | succ n ih =>
    rw [xorUpTo, forUpTo_succ, BitVec.getLsbD_xor, ih]
    cases bit n <;> simp [getLsbD_column M m n hi]

/-- A vector of one bit selects one column. -/
theorem mulVec_single {j : Nat} (hj : j < n) : M.mulVec m (1#n <<< j) = M.column m j := by
  apply BitVec.eq_of_getLsbD_eq
  intro i hi
  simp only [← BitVec.twoPow_eq, getLsbD_mulVec _ _ _ hi, getLsbD_column _ _ _ hi, BitVec.getLsbD_twoPow, hj,
    decide_true, Bool.true_and, xorUpTo_and_eq]

end Product

/-! ## The matrices (R100, R101) -/

theorem matrixG_rows : (List.range 7).map (fun i => matrixG.row 4 i) = [0xB, 0xD, 0x1, 0xE, 0x2, 0x4, 0x8] := by
  decide

theorem matrixG_columns : (List.range 4).map (fun j => matrixG.column 7 j) = [0x07, 0x19, 0x2A, 0x4B] := by
  decide

theorem matrixH_rows : (List.range 3).map (fun i => matrixH.row 7 i) = [0x55, 0x66, 0x78] := by
  decide

/-! ## The encode and syndrome functions (R103 to R106) -/

@[simp] theorem getElem_bitAt (w : Nat) (b : Bool) (i : Nat) {j : Nat} (hj : j < w) :
    (bitAt w b i)[j] = (b && decide (j = i)) := by
  cases b with
  | false => simp [bitAt]
  | true => simp [bitAt, ← BitVec.twoPow_eq]

theorem enc_eq_codewordOf (d : DataBlock) : enc d = codewordOf d := by
  apply BitVec.eq_of_getLsbD_eq
  intro i hi
  rw [enc, getLsbD_mulVec _ _ _ hi]
  obtain rfl | rfl | rfl | rfl | rfl | rfl | rfl : i = 0 ∨ i = 1 ∨ i = 2 ∨ i = 3 ∨ i = 4 ∨ i = 5 ∨ i = 6 := by omega
  all_goals simp [codewordOf, xorUpTo, matrixG, BitMatrix.entry]

theorem enc_eq_sum_columns (d : DataBlock) :
    enc d = (if d.getLsbD 0 then 0x07 else 0) ^^^ (if d.getLsbD 1 then 0x19 else 0) ^^^
      (if d.getLsbD 2 then 0x2A else 0) ^^^ (if d.getLsbD 3 then 0x4B else 0) := by
  obtain ⟨h0, h1, h2, h3⟩ : matrixG.column 7 0 = 0x07 ∧ matrixG.column 7 1 = 0x19 ∧ matrixG.column 7 2 = 0x2A ∧
      matrixG.column 7 3 = 0x4B := by
    simpa [List.range_succ] using matrixG_columns
  rw [enc, mulVec_eq_sum_columns]
  simp [h0, h1, h2, h3]

theorem syn_eq_syndromeOf (c : Bits7) : syn c = syndromeOf c := by
  apply BitVec.eq_of_getLsbD_eq
  intro i hi
  rw [syn, getLsbD_mulVec _ _ _ hi]
  obtain rfl | rfl | rfl : i = 0 ∨ i = 1 ∨ i = 2 := by omega
  all_goals simp [syndromeOf, xorUpTo, matrixH, BitMatrix.entry]

theorem syn_xor (a b : Bits7) : syn (a ^^^ b) = syn a ^^^ syn b :=
  mulVec_xor ..

/-- Each column of G is a codeword, so by linearity their sums are. -/
theorem syn_enc (d : DataBlock) : syn (enc d) = 0 := by
  have hzero : syn 0 = 0 := by decide
  have h07 : syn 0x07 = 0 := by decide
  have h19 : syn 0x19 = 0 := by decide
  have h2A : syn 0x2A = 0 := by decide
  have h4B : syn 0x4B = 0 := by decide
  simp only [enc_eq_sum_columns, syn_xor, apply_ite syn, hzero, h07, h19, h2A, h4B, ite_self]
  rfl

theorem toNat_hcol : ∀ j : Fin 7, (hcol j).toNat = j + 1 := by decide

/-- A nonzero syndrome is the column its number, less 1, names. -/
theorem hcol_eq_iff {s : Syndrome} {i : Fin 7} : hcol i = s ↔ i.val + 1 = s.toNat := by
  rw [← BitVec.toNat_inj, toNat_hcol]

end Sys2Proof.Machine

namespace Sys2Proof.Proofs

open Sys2Proof.Machine Sys2Proof.Claims

/-- Settles O22: the sum of R102 is odd iff oddly many bits of the masked row are 1. -/
theorem productIsRowParity : Obligations.ProductIsRowParity := by
  intro M m n v i hi
  have hsum := getLsbD_mulVec M m v hi
  exact ⟨hsum, by rw [hsum, xorUpTo_eq_odd_countUpTo, popcount_row_and]⟩

/-- Settles O21: the masks, one matrix and direction at a time. -/
theorem matricesAreTheSpecs : Obligations.MatricesAreTheSpecs :=
  ⟨matrixG_rows, matrixG_columns, matrixH_rows⟩

/-- Settles O23: the product with G read by rows and by columns. -/
theorem encodeFunction : Obligations.EncodeFunction :=
  fun d => ⟨enc_eq_codewordOf d, enc_eq_sum_columns d⟩

/-- Settles O24: the product with H read by rows, and the linearity of every product. -/
theorem syndromeFunction : Obligations.SyndromeFunction :=
  ⟨syn_eq_syndromeOf, syn_xor⟩

/-- Settles O25: both forms of the statement are the syndrome of a codeword. -/
theorem codewordsHaveZeroSyndrome : Obligations.CodewordsHaveZeroSyndrome :=
  fun d => ⟨syn_enc d, syn_enc d⟩

/-- Settles O26: a single bit selects its column, and the columns are the seven nonzero numbers. -/
theorem columnsOfHAreOneToSeven : Obligations.ColumnsOfHAreOneToSeven := by
  refine ⟨fun j => ⟨toNat_hcol j, mulVec_single _ _ j.isLt⟩, fun s hs => ?_⟩
  have hpos : 0 < s.toNat := BitVec.toNat_pos_of_ne_zero hs
  refine ⟨⟨s.toNat - 1, by omega⟩, hcol_eq_iff.mpr (Nat.sub_add_cancel hpos), fun i hi => ?_⟩
  exact Fin.ext (Nat.eq_sub_of_add_eq (hcol_eq_iff.mp hi))

/-- Settles O27: `MVG` makes no check, and its effect writes the product with G. -/
theorem mvgWritesTheCodeword : Obligations.MvgWritesTheCodeword := by
  intro s
  rw [← enc_eq_codewordOf]
  rfl

/-- Settles O28: `MVH` makes no check, and its effect writes the product with H. -/
theorem mvhWritesTheSyndrome : Obligations.MvhWritesTheSyndrome := by
  intro s
  rw [← syn_eq_syndromeOf]
  rfl

end Sys2Proof.Proofs
end

section
/-! SUPPORT. The single-error decoder (R120 to R123): its ROM and its data positions as formulas, and what it answers for
a codeword with at most one bit flipped (R126). -/

namespace Sys2Proof.Machine

open Claims

/-! ## The ROM and the data positions (R120 to R122) -/

/-- Entry `s` of the ROM is the position `s` and the flip of R121. -/
theorem synpos_eq : ∀ s : Syndrome, synpos s = (s, flipMask s) := by decide

theorem extract_eq_dataOf (c : Bits7) : extract c = dataOf c := by
  apply BitVec.eq_of_getLsbD_eq
  intro i hi
  rw [extract, getLsbD_ofBits, dif_pos hi]
  obtain rfl | rfl | rfl | rfl : i = 0 ∨ i = 1 ∨ i = 2 ∨ i = 3 := by omega
  all_goals simp [dataOf, dpos]

/-- The code is systematic: a codeword carries its data (R103, R122). -/
theorem extract_enc : ∀ d : DataBlock, extract (enc d) = d := by decide

/-- The decoder flips the bit the syndrome names (R123). -/
theorem secDecode_eq (c : Bits7) :
    secDecode c =
      { s := syn c, p := syn c, cc := c ^^^ flipMask (syn c), q := extract (c ^^^ flipMask (syn c)), corr := syn c != 0 } := by
  simp only [secDecode, synpos_eq]

/-! ## At most one bit error (R126) -/

theorem eq_zero_or_single_of_popcount_le_one :
    ∀ e : Bits7, popcount e ≤ 1 → e = 0 ∨ ∃ j : Fin 7, e = 1#7 <<< j.val := by decide

/-- The syndrome of a single bit is its column of H, which is its position (R106, R121). -/
theorem flipMask_syn_single (j : Fin 7) : flipMask (syn (1#7 <<< j.val)) = 1#7 <<< j.val := by
  have hsyn : syn (1#7 <<< j.val) = hcol j := mulVec_single _ _ j.isLt
  have hpos : (hcol j).toNat = j + 1 := toNat_hcol j
  have hne : hcol j ≠ 0 := fun h => by simp [h] at hpos
  rw [hsyn, flipMask, if_neg hne, hpos, Nat.add_sub_cancel]

/-- At most one bit error is what its syndrome has the decoder flip. -/
theorem flipMask_syn {e : Bits7} (he : popcount e ≤ 1) : flipMask (syn e) = e := by
  obtain rfl | ⟨j, rfl⟩ := eq_zero_or_single_of_popcount_le_one e he
  · decide
  · exact flipMask_syn_single j

theorem syn_eq_zero_iff {e : Bits7} (he : popcount e ≤ 1) : syn e = 0 ↔ e = 0 := by
  constructor
  · intro h
    rw [← flipMask_syn he, h]
    rfl
  · rintro rfl
    decide

/-- A codeword with at most one bit flipped has the syndrome of the flip, so the decoder takes the flip back. -/
theorem secDecode_enc_xor (d : DataBlock) {e : Bits7} (he : popcount e ≤ 1) :
    secDecode (enc d ^^^ e) = { s := syn e, p := syn e, cc := enc d, q := d, corr := decide (e ≠ 0) } := by
  have hsyn : syn (enc d ^^^ e) = syn e := by
    rw [syn_xor, syn_enc]
    exact BitVec.zero_xor
  have hcc : enc d ^^^ e ^^^ flipMask (syn e) = enc d := by
    rw [flipMask_syn he, BitVec.xor_assoc, BitVec.xor_self, BitVec.xor_zero]
  have hcorr : (syn e != 0) = decide (e ≠ 0) := by
    rw [Bool.eq_iff_iff, bne_iff_ne, decide_eq_true_iff]
    exact not_congr (syn_eq_zero_iff he)
  rw [secDecode_eq, hsyn, hcc, extract_enc, hcorr]

/-- A block with no slot erased takes the single-error path (R190). -/
theorem decodeBlock_enc_xor (d : DataBlock) {e : Bits7} (he : popcount e ≤ 1) :
    decodeBlock { v := enc d ^^^ e, e := 0 } =
      { data := d, corr := decide (e ≠ 0), uncorr := false, noMatch := false, epath := false } := by
  rw [decodeBlock, if_pos rfl, secDecode_enc_xor d he]

/-- A flag no decoded block has is not set for the batch (R192). -/
theorem batchFlag_eq_false {m : Memory} {n : Nat} {flag : DobEntry → Bool}
    (h : ∀ k, k < n → flag (decodeBlock (m.cwbAt k)) = false) : m.batchFlag n flag = false := by
  refine eq_false_of_ne_true fun htrue => ?_
  obtain ⟨k, hk, hflag⟩ := (batchFlag_eq_true ..).mp htrue
  exact Bool.false_ne_true ((h k hk).symm.trans hflag)

/-! ## The commands and their checks (R124, R125, R192) -/

theorem check_eq_raise {bad : Bool} (h : bad = true) {e : ErrCode} {i : Instr} {s : State} {go : Result} :
    check bad e i s go = .next (s.raise e (encode i)) :=
  if_pos h

theorem check_eq_go {bad : Bool} (h : bad = false) {e : ErrCode} {i : Instr} {s : State} {go : Result} :
    check bad e i s go = go := by
  rw [h, check_false]

theorem exec_enc_four (s : State) : exec (.enc 4) s = .next (s.withC { v := enc s.regD, e := 0 }) := rfl

theorem exec_dec_seven {s : State} (h : s.regC.e = 0) : exec (.dec 7) s = .next ((Instr.dec 7).effect s) :=
  check_eq_go (bne_eq_false_iff_eq.mpr h)

theorem exec_decb {s : State} (h : s.batch ≤ s.cfg.nmax) : exec .decb s = .next (Instr.decb.effect s) :=
  check_eq_go (decide_eq_false (Nat.not_lt.mpr h))

end Sys2Proof.Machine

namespace Sys2Proof.Proofs

open Sys2Proof.Machine Sys2Proof.Claims

/-- Settles O29: `ENC` is the check of its length, and then the product with G. -/
theorem encEncodesOrFaults : Obligations.EncEncodesOrFaults := by
  intro s len
  refine ⟨?_, fun hlen => ?_⟩
  · rintro rfl
    rw [← enc_eq_codewordOf]
    exact exec_enc_four s
  · exact check_eq_raise (bne_iff_ne.mpr hlen)

/-- Settles O30: `DEC` is the check of its length, the check for erased slots, and then the decoder, whose ROM and data
positions are the formulas of R121 and R122. -/
theorem decDecodesOrFaults : Obligations.DecDecodesOrFaults := by
  intro s len
  refine ⟨?_, fun hlen => ?_, ?_⟩
  · rintro rfl he
    rw [exec_dec_seven he, Instr.effect, secDecode_eq, extract_eq_dataOf, syn_eq_syndromeOf]
    rfl
  · exact check_eq_raise (bne_iff_ne.mpr hlen)
  · rintro rfl he
    exact check_eq_raise (bne_iff_ne.mpr he)

/-- Settles O31: the data and the flag of what the decoder answers for a codeword with at most one bit flipped. -/
theorem singleErrorsAreCorrected : Obligations.SingleErrorsAreCorrected := by
  intro d e he
  rw [secDecode_enc_xor d he]
  exact ⟨rfl, decide_eq_true_iff⟩

/-- Settles O32: `ENC` leaves a codeword with no slot erased, and `DEC` answers for it with the flip as the decoder does. -/
theorem encFlipDecRecovers : Obligations.EncFlipDecRecovers := by
  intro s e he
  have hdec := secDecode_enc_xor s.regD he
  refine ⟨_, _, exec_enc_four s, exec_dec_seven rfl, ?_⟩
  simp [Instr.effect, hdec]

/-- Settles O58: `DECB` takes each block of the batch down the single-error path, and ORs the flags. -/
theorem batchCorrectsSingleErrors : Obligations.BatchCorrectsSingleErrors := by
  intro s e hN he hcwb
  have hblock : ∀ k, k < s.batch → decodeBlock (s.mem.cwbAt k) =
      { data := s.mem.dibAt k, corr := decide (e k ≠ 0), uncorr := false, noMatch := false, epath := false } := by
    intro k hk
    rw [hcwb k hk, decodeBlock_enc_xor _ (he k)]
  refine ⟨_, exec_decb hN, rfl, fun k hk => ?_, ?_, ?_, ?_⟩
  · have hdob : (Instr.decb.effect s).mem.dobAt k = decodeBlock (s.mem.cwbAt k) :=
      (decodeBatch_dobAt ..).trans (if_pos hk)
    rw [hdob, hblock k hk]
    exact ⟨rfl, decide_eq_true_iff, rfl, rfl⟩
  · exact batchFlag_eq_false fun k hk => by rw [hblock k hk]
  · exact batchFlag_eq_false fun k hk => by rw [hblock k hk]
  · refine (batchFlag_eq_true ..).trans (exists_congr fun k => and_congr_right fun hk => ?_)
    rw [hblock k hk]
    exact decide_eq_true_iff

end Sys2Proof.Proofs
end

section
/-! SUPPORT. The interleaver (R141 to R147): when each command completes, the transposition and its inverse, slot by slot,
and `ILV` as one scatter per codeword. -/

namespace Sys2Proof.Machine

open Claims

/-! ## A batch with operands in range, and the faults of one that is not (R215) -/

theorem batchTooLong_eq_false {s : State} (h : s.batch ≤ s.cfg.nmax) : s.batchTooLong = false :=
  decide_eq_false (Nat.not_lt.mpr h)

theorem positionOutside_eq_false {s : State} {k : Nat} (h : k < s.batch) : s.positionOutside k = false :=
  decide_eq_false (Nat.not_le.mpr h)

theorem batchPartial_eq_false {s : State} (h : s.chstat = 0x7F) : s.batchPartial = false :=
  bne_eq_false_iff_eq.mpr h

theorem batchPartial_eq_true {s : State} (h : s.chstat ≠ 0x7F) : s.batchPartial = true :=
  bne_iff_ne.mpr h

/-- The operand is the first check of every command that has one (R215). -/
theorem exec_illegalOperand {i : Instr} {s : State}
    (h : (i.checksBatch = true ∧ s.cfg.nmax < s.regN.toNat) ∨ i.argOutside s = true) :
    exec i s = .next (faulted s .illegalOperand 3 (encode i)) := by
  have hmeets : i.meets s .illegalOperand = true := by
    rwa [Instr.meets, Bool.or_eq_true, Bool.and_eq_true, decide_eq_true_iff]
  exact (exec_eq_checks i s).trans (check_eq_raise hmeets)

/-- A command that raised no fault had its effect. -/
theorem effect_of_faultLog_eq {i : Instr} {s t : State} (h : exec i s = .next t) (hlog : t.faultLog = s.faultLog) :
    i.firstFault s = none ∧ t = i.effect s := by
  obtain ⟨e, -, rfl⟩ | heffect := exec_cases h
  · exact absurd hlog (List.cons_ne_self _ _)
  · exact heffect

/-- A later command with the same `N` and capacity finds the batch in range too. -/
theorem batch_le_of_same_batch {i : Instr} {s v : State} (hf : i.firstFault s = none) (hi : i.checksBatch = true)
    (hcfg : v.cfg = s.cfg) (hregN : v.regN = s.regN) : v.batch ≤ v.cfg.nmax := by
  rw [State.batch, hregN, hcfg]
  exact batch_le_of_firstFault hf hi

section Completes

variable {s : State}

theorem exec_ilv (h : s.batch ≤ s.cfg.nmax) : exec .ilv s = .next (Instr.ilv.effect s) :=
  check_eq_go (batchTooLong_eq_false h)

theorem exec_ilv1 {k : Nat} (h : s.batch ≤ s.cfg.nmax) (hk : k < s.batch) :
    exec (.ilv1 k) s = .next ((Instr.ilv1 k).effect s) :=
  (check_eq_go (batchTooLong_eq_false h)).trans (check_eq_go (positionOutside_eq_false hk))

/-- With its operand in range, `DIL` is the check that all channels are present (R144, R153). -/
theorem exec_dil_eq_check {k : Nat} (h : s.batch ≤ s.cfg.nmax) (hk : k < s.batch) :
    exec (.dil k) s = check s.batchPartial .partialBatch (.dil k) s (.next ((Instr.dil k).effect s)) :=
  (check_eq_go (batchTooLong_eq_false h)).trans (check_eq_go (positionOutside_eq_false hk))

theorem exec_dil {k : Nat} (h : s.batch ≤ s.cfg.nmax) (hk : k < s.batch) (hall : s.chstat = 0x7F) :
    exec (.dil k) s = .next ((Instr.dil k).effect s) :=
  (exec_dil_eq_check h hk).trans (check_eq_go (batchPartial_eq_false hall))

/-- With `N` in range, `DILB` is the check that all channels are present (R145, R153). -/
theorem exec_dilb_eq_check (h : s.batch ≤ s.cfg.nmax) :
    exec .dilb s = check s.batchPartial .partialBatch .dilb s (.next (Instr.dilb.effect s)) :=
  check_eq_go (batchTooLong_eq_false h)

theorem exec_dilb (h : s.batch ≤ s.cfg.nmax) (hall : s.chstat = 0x7F) :
    exec .dilb s = .next (Instr.dilb.effect s) :=
  (exec_dilb_eq_check h).trans (check_eq_go (batchPartial_eq_false hall))

end Completes

/-! ## The transposition and its inverse (R146) -/

/-- Inside the batch a de-interleaved codeword is what the 7-to-1 network gives at its position. -/
theorem deinterleave_cwbAt_of_lt (m : Memory) {n k : Nat} (hk : k < n) : (m.deinterleave n).cwbAt k = m.gather k :=
  (deinterleave_cwbAt ..).trans (if_pos hk)

/-- At a position of the batch the 7-to-1 network gives back the codeword that was interleaved there. -/
theorem gather_interleave (m : Memory) {n k : Nat} (hk : k < n) : (m.interleave n).gather k = m.cwbAt k :=
  triWord_ext (fun c => by rw [gather_v, interleave_chvAt, if_pos hk])
    (fun c => by rw [gather_e, interleave_cheAt, if_pos hk])

/-- The 7-to-1 network gives equal codewords in memories with the same channel buffers. -/
theorem gather_eq_of_channels_eq {m m' : Memory} (hv : m'.chv = m.chv) (he : m'.che = m.che) (k : Nat) :
    m'.gather k = m.gather k :=
  gather_congr (chvAt_congr hv · k) (cheAt_congr he · k)

/-- Interleaving a codeword that the 7-to-1 network gave leaves its position of the channels as it was. -/
theorem interleave_of_cwbAt_eq_gather {m m' : Memory} {n k : Nat} (hk : k < n) (h : m'.cwbAt k = m.gather k)
    (c : Fin 7) :
    (m'.interleave n).chvAt c k = m.chvAt c k ∧ (m'.interleave n).cheAt c k = m.cheAt c k := by
  rw [interleave_chvAt, interleave_cheAt, if_pos hk, if_pos hk, h]
  exact ⟨gather_v .., gather_e ..⟩

/-! ## A lost channel (R147) -/

theorem getLsbD_channelBit (c : Fin 7) (d : Nat) : (channelBit c).getLsbD d = decide (d = c.val) := by
  rw [channelBit, ← BitVec.twoPow_eq, BitVec.getLsbD_twoPow, decide_eq_true c.isLt, Bool.true_and]
  exact decide_eq_decide.mpr eq_comm

/-- A codeword gathered where one channel alone is erased has that one slot erased. -/
theorem gather_e_eq_channelBit {m : Memory} {k : Nat} {c : Fin 7} (h : ∀ d, m.cheAt d k = decide (d = c)) :
    (m.gather k).e = channelBit c := by
  refine BitVec.eq_of_getLsbD_eq fun i hi => ?_
  rw [getLsbD_channelBit]
  calc (m.gather k).e.getLsbD i = m.cheAt ⟨i, hi⟩ k := gather_e m k ⟨i, hi⟩
    _ = decide (i = c.val) := (h ⟨i, hi⟩).trans (decide_eq_decide.mpr Fin.ext_iff)

/-! ## Scatters one by one (R143) -/

theorem scatterEach_succ {n : Nat} {s t : State} (h : scatterEach n s = .next t) :
    scatterEach (n + 1) s = exec (.ilv1 n) (t.withC (t.mem.cwbAt n)) := by
  rw [scatterEach, h]
  rfl

/-- Scatters of the first `n` codewords of the batch interleave them, and leave the last of them in `C`. -/
theorem scatterEach_eq_interleave {s : State} (hN : s.batch ≤ s.cfg.nmax) {n : Nat} (hn : n ≤ s.batch) :
    ∃ w, scatterEach n s = .next ((s.withC w).withMem (s.mem.interleave n)) := by
  induction n with
  | zero => exact ⟨s.regC, rfl⟩
  | succ n ih =>
    obtain ⟨w, hw⟩ := ih (Nat.le_of_succ_le hn)
    exact ⟨(s.mem.interleave n).cwbAt n, (scatterEach_succ hw).trans (exec_ilv1 hN hn)⟩

end Sys2Proof.Machine

namespace Sys2Proof.Proofs

open Sys2Proof.Machine

/-- Settles O37: `ILV` is the check of `N`, and then the transposition, entry by entry. -/
theorem ilvTransposesOrFaults : Obligations.IlvTransposesOrFaults := by
  intro s
  refine ⟨fun hN => ?_, fun hN => exec_illegalOperand (.inl ⟨rfl, hN⟩)⟩
  exact ⟨_, exec_ilv hN, interleave_dib .., interleave_cwb .., interleave_dob ..,
    fun c k => ⟨interleave_chvAt .., interleave_cheAt ..⟩⟩

/-- Settles O38: `ILV1` is the checks of `N` and `k`, and then the 1-to-7 network. -/
theorem ilv1ScattersOrFaults : Obligations.Ilv1ScattersOrFaults := by
  intro s k
  refine ⟨fun hN hk => ?_, fun h => exec_illegalOperand (h.imp (⟨rfl, ·⟩) decide_eq_true)⟩
  exact ⟨_, exec_ilv1 hN hk, scatter_dib .., scatter_cwb .., scatter_dob ..,
    fun c j => ⟨scatter_chvAt .., scatter_cheAt ..⟩⟩

/-- Settles O39: `DIL` is the checks of `N`, `k` and the channels, and then the 7-to-1 network. -/
theorem dilGathersOrFaults : Obligations.DilGathersOrFaults := by
  intro s k
  refine ⟨fun hN hk hall => ?_, fun h => exec_illegalOperand (h.imp (⟨rfl, ·⟩) decide_eq_true), fun hN hk hmiss => ?_⟩
  · exact ⟨_, exec_dil hN hk hall, fun c => ⟨gather_v .., gather_e ..⟩⟩
  · exact (exec_dil_eq_check hN hk).trans (check_eq_raise (batchPartial_eq_true hmiss))

/-- Settles O40: `DILB` is the checks of `N` and the channels, and then the 7-to-1 network at each entry of the batch. -/
theorem dilbTransposesOrFaults : Obligations.DilbTransposesOrFaults := by
  intro s
  refine ⟨fun hN hall => ?_, fun hN => exec_illegalOperand (.inl ⟨rfl, hN⟩), fun hN hmiss => ?_⟩
  · refine ⟨_, exec_dilb hN hall, deinterleave_dib .., deinterleave_dob .., deinterleave_chv .., deinterleave_che ..,
      fun k hk => (deinterleave_cwbAt ..).trans (if_neg (Nat.not_lt.mpr hk)), fun c k hk => ?_⟩
    rw [deinterleave_cwbAt_of_lt (n := s.batch) _ hk]
    exact ⟨gather_v .., gather_e ..⟩
  · exact (exec_dilb_eq_check hN).trans (check_eq_raise (batchPartial_eq_true hmiss))

/-- Settles O41: the first command raised no fault, so `N` is in range for the second, which finds all channels present
where it asks for them; what either writes, the other reads back. -/
theorem interleavingRoundTrips : Obligations.InterleavingRoundTrips := by
  constructor
  · intro s u v hu hlog hcfg hregN hchstat hchv hche
    obtain ⟨hf, rfl⟩ := effect_of_faultLog_eq hu hlog
    have hbatch : v.batch = s.batch := congrArg BitVec.toNat hregN
    have hN : v.batch ≤ v.cfg.nmax := batch_le_of_same_batch hf rfl hcfg hregN
    refine ⟨_, exec_dilb hN hchstat, fun k hk => ?_⟩
    calc (v.mem.deinterleave v.batch).cwbAt k = v.mem.gather k := deinterleave_cwbAt_of_lt _ (hbatch ▸ hk)
      _ = (s.mem.interleave s.batch).gather k := gather_eq_of_channels_eq hchv hche k
      _ = s.mem.cwbAt k := gather_interleave _ hk
  · intro s u v hu hlog hcfg hregN hcwb
    obtain ⟨hf, rfl⟩ := effect_of_faultLog_eq hu hlog
    have hbatch : v.batch = s.batch := congrArg BitVec.toNat hregN
    have hN : v.batch ≤ v.cfg.nmax := batch_le_of_same_batch hf rfl hcfg hregN
    refine ⟨_, exec_ilv hN, fun c k hk => ?_⟩
    have hgather : v.mem.cwbAt k = s.mem.gather k := (cwbAt_congr hcwb k).trans (deinterleave_cwbAt_of_lt _ hk)
    exact interleave_of_cwbAt_eq_gather (hbatch ▸ hk) hgather c

/-- Settles O42: both commands gather at positions where channel `c` alone is erased. -/
theorem lostChannelErasesOneSlot : Obligations.LostChannelErasesOneSlot := by
  intro s c hN hall hlost
  have hslot : ∀ k, k < s.batch → (s.mem.gather k).e = channelBit c :=
    fun k hk => gather_e_eq_channelBit fun d => hlost d k hk
  refine ⟨fun k hk => ⟨_, exec_dil hN hk hall, hslot k hk⟩, _, exec_dilb hN hall, fun k hk => ?_⟩
  exact (congrArg TriWord.e (deinterleave_cwbAt_of_lt _ hk)).trans (hslot k hk)

/-- Settles O43: the scatters of all `N` codewords leave the very buffers that `ILV` leaves. -/
theorem scatterEachEqualsIlv : Obligations.ScatterEachEqualsIlv := by
  intro s hN
  obtain ⟨w, hw⟩ := scatterEach_eq_interleave hN (Nat.le_refl s.batch)
  exact ⟨_, _, hw, exec_ilv hN, rfl, fun _ _ => ⟨rfl, rfl⟩⟩

end Sys2Proof.Proofs
end

section
/-! SUPPORT. Channel accumulation (R150 to R152): when its commands complete, and a channel marked present. -/

namespace Sys2Proof.Machine

theorem exec_chrdy {c : Nat} (hc : c < 7) (s : State) : exec (.chrdy c) s = .next (s.markPresent ⟨c, hc⟩) :=
  withChannel_of_lt hc ..

theorem exec_chlost {c : Nat} {s : State} (hN : s.batch ≤ s.cfg.nmax) (hc : c < 7) :
    exec (.chlost c) s = .next ((s.withMem (s.mem.markLost ⟨c, hc⟩ s.batch)).markPresent ⟨c, hc⟩) :=
  (check_eq_go (batchTooLong_eq_false hN)).trans (withChannel_of_lt hc ..)

/-- Marking a channel present sets its bit and keeps the others (R30). -/
theorem getLsbD_or_channelBit (v : Bits7) (c : Fin 7) (d : Nat) :
    (v ||| channelBit c).getLsbD d = (decide (d = c.val) || v.getLsbD d) := by
  rw [BitVec.getLsbD_or, getLsbD_channelBit, Bool.or_comm]

end Sys2Proof.Machine

namespace Sys2Proof.Proofs

open Sys2Proof.Machine

/-- Settles O44: `CHRDY` is the check of its operand, and then the bit of the channel. -/
theorem chrdyMarksOrFaults : Obligations.ChrdyMarksOrFaults := by
  intro s c
  refine ⟨fun hc => ?_, fun hc => exec_illegalOperand (.inr (decide_eq_true hc))⟩
  exact ⟨_, exec_chrdy hc s, fun d _ => getLsbD_or_channelBit s.chstat ⟨c, hc⟩ d⟩

/-- Settles O45: `CHLOST` is the checks of `N` and its operand, and then the marks at the batch's positions and the bit of
the channel. -/
theorem chlostErasesOrFaults : Obligations.ChlostErasesOrFaults := by
  intro s c
  refine ⟨fun hN hc => ?_, fun h => exec_illegalOperand (h.imp (⟨rfl, ·⟩) decide_eq_true)⟩
  refine ⟨_, _, exec_chlost hN hc, fun d _ => getLsbD_or_channelBit s.chstat ⟨c, hc⟩ d,
    markLost_dib .., markLost_cwb .., markLost_dob .., markLost_chv .., fun d k => ?_⟩
  rw [withMem_mem, markLost_cheAt, Bool.if_true_left]
  simp only [Fin.ext_iff]
  rfl

/-- Settles O46: `BCLR` makes no check, and its effect clears `CHSTAT` and the marks below `NMAX`. -/
theorem bclrEndsTheBatch : Obligations.BclrEndsTheBatch := by
  intro s
  refine ⟨_, rfl, clearErasures_dib .., clearErasures_cwb .., clearErasures_dob .., clearErasures_chv .., fun c k => ?_⟩
  rw [withMem_mem, clearErasures_cheAt, Bool.if_false_left, ← decide_not]
  simp only [Nat.not_lt]

end Sys2Proof.Proofs
end

section
/-! SUPPORT. The erasure decoder (R170 to R180). The image of a candidate is the syndrome of its bits, and the bits of the
candidates are the words under the erasure mask, each once. So the search finds a codeword that agrees with the known bits
if there is one; and with at most 2 erasures there is at most one, since the code has distance 3. -/

namespace Sys2Proof.Machine

/-! ## Candidates over a list of indices (R173) -/

/-- The bits of candidate `m` over a list of indices; over the erased ones these are `candidateBits`. -/
def bitsOver (l : List Nat) (m : Nat) : Bits7 := candidateSum (fun i => 1#7 <<< i) m l

theorem bitsOver_nil (m : Nat) : bitsOver [] m = 0 := rfl

theorem bitsOver_cons (i : Nat) (l : List Nat) (m : Nat) :
    bitsOver (i :: l) m = (if m % 2 = 1 then 1#7 <<< i else 0) ^^^ bitsOver l (m / 2) := rfl

/-- A word without its bit `i`. -/
theorem getLsbD_xor_bit (x : Bits7) (i j : Nat) :
    (x ^^^ if x.getLsbD i then 1#7 <<< i else 0).getLsbD j = (x.getLsbD j && decide (j ≠ i)) := by
  rw [BitVec.getLsbD_xor, ← BitVec.twoPow_eq]
  by_cases hji : j = i
  · subst hji
    cases hbit : x.getLsbD j with
    | false => simp
    | true => simp [BitVec.lt_of_getLsbD hbit]
  · split <;> simp [BitVec.getLsbD_twoPow, hji, Ne.symm hji]

section Candidates

variable {l : List Nat}

/-- The image of a candidate is the syndrome of its bits. -/
theorem syn_bitsOver (hl : ∀ i ∈ l, i < 7) (m : Nat) : syn (bitsOver l m) = candidateSum hcol m l := by
  have hzero : syn 0 = 0 := by decide
  induction l generalizing m with
  | nil => exact hzero
  | cons i rest ih =>
    have hsingle : syn (1#7 <<< i) = hcol i := mulVec_single _ _ (hl i List.mem_cons_self)
    have hrest := ih (fun j hj => hl j (List.mem_cons_of_mem i hj)) (m / 2)
    rw [bitsOver_cons, candidateSum, syn_xor, apply_ite syn, hsingle, hzero, hrest]

/-- A candidate has no bit outside its indices. -/
theorem getLsbD_bitsOver_of_not_mem {j : Nat} (hj : j ∉ l) (m : Nat) : (bitsOver l m).getLsbD j = false := by
  induction l generalizing m with
  | nil => simp [bitsOver_nil]
  | cons i rest ih =>
    obtain ⟨hne, hrest⟩ := not_or.mp (mt List.mem_cons.mpr hj)
    rw [bitsOver_cons, BitVec.getLsbD_xor, ih hrest]
    split <;> simp [← BitVec.twoPow_eq, Ne.symm hne]

/-- The first index carries the lowest bit of the candidate. -/
theorem getLsbD_bitsOver_head {i : Nat} (hi : i < 7) (hl : i ∉ l) (m : Nat) :
    (bitsOver (i :: l) m).getLsbD i = decide (m % 2 = 1) := by
  rw [bitsOver_cons, BitVec.getLsbD_xor, getLsbD_bitsOver_of_not_mem hl]
  split <;> simp [← BitVec.twoPow_eq, *]

/-- Candidates with the same bits are the same candidate. -/
theorem bitsOver_injective (hnodup : l.Nodup) (hl : ∀ i ∈ l, i < 7) {m m' : Nat} (hm : m < 2 ^ l.length)
    (hm' : m' < 2 ^ l.length) (h : bitsOver l m = bitsOver l m') : m = m' := by
  induction l generalizing m m' with
  | nil =>
    rw [List.length_nil, Nat.pow_zero] at hm hm'
    omega
  | cons i rest ih =>
    obtain ⟨hi, hnodup⟩ := List.nodup_cons.mp hnodup
    have hbit := getLsbD_bitsOver_head (hl i List.mem_cons_self) hi
    have hlow : m % 2 = 1 ↔ m' % 2 = 1 := by rw [← decide_eq_decide, ← hbit m, ← hbit m', h]
    simp only [bitsOver_cons, hlow, BitVec.xor_right_inj] at h
    rw [List.length_cons, Nat.pow_succ] at hm hm'
    have hhigh : m / 2 = m' / 2 :=
      ih hnodup (fun j hj => hl j (List.mem_cons_of_mem i hj)) (by omega) (by omega) h
    omega

/-- Each word with no bit outside the indices is the bits of a candidate. -/
theorem exists_bitsOver_eq (x : Bits7) (hx : ∀ j, x.getLsbD j = true → j ∈ l) :
    ∃ m < 2 ^ l.length, bitsOver l m = x := by
  induction l generalizing x with
  | nil => exact ⟨0, Nat.one_pos, BitVec.eq_of_getLsbD_eq fun j _ => by simpa [bitsOver_nil] using hx j⟩
  | cons i rest ih =>
    obtain ⟨m, hm, hsum⟩ := ih (x ^^^ if x.getLsbD i then 1#7 <<< i else 0) fun j hj => by
      rw [getLsbD_xor_bit, Bool.and_eq_true, decide_eq_true_iff] at hj
      exact (List.mem_cons.mp (hx j hj.1)).resolve_left hj.2
    have hbit := (x.getLsbD i).toNat_le
    refine ⟨2 * m + (x.getLsbD i).toNat, ?_, ?_⟩
    · rw [List.length_cons, Nat.pow_succ]
      omega
    · have hhalf : (2 * m + (x.getLsbD i).toNat) / 2 = m := by omega
      have hlow : (2 * m + (x.getLsbD i).toNat) % 2 = 1 ↔ x.getLsbD i = true := by
        rw [← Bool.toNat_eq_one]
        omega
      rw [bitsOver_cons, hhalf, hsum]
      simp only [hlow]
      rw [BitVec.xor_comm x, ← BitVec.xor_assoc, BitVec.xor_self, BitVec.zero_xor]

end Candidates

/-! ## The candidates of an erasure mask -/

theorem length_filter_range (f : Nat → Bool) (n : Nat) : ((List.range n).filter f).length = countUpTo f n := by
  induction n with
  | zero => rfl
  | succ n ih =>
    rw [List.range_succ, List.filter_append, List.length_append, ih, countUpTo]
    cases h : f n <;> simp [h]

theorem toNat_le_of_imp {a b : Bool} (h : a = true → b = true) : a.toNat ≤ b.toNat := by
  cases a with
  | false => exact Nat.zero_le _
  | true => exact Nat.le_of_eq (congrArg Bool.toNat (h rfl).symm)

theorem countUpTo_le_of_imp {f g : Nat → Bool} (h : ∀ j, f j = true → g j = true) (n : Nat) :
    countUpTo f n ≤ countUpTo g n := by
  induction n with
  | zero => exact Nat.le_refl 0
  | succ n ih => exact Nat.add_le_add ih (toNat_le_of_imp (h n))

theorem length_erasedIndices (e : Bits7) : (erasedIndices e).length = popcount e := length_filter_range ..

theorem nodup_erasedIndices (e : Bits7) : (erasedIndices e).Nodup := List.nodup_range.filter _

theorem mem_erasedIndices {e : Bits7} {i : Nat} : i ∈ erasedIndices e ↔ i < 7 ∧ e.getLsbD i = true := by
  rw [erasedIndices, List.mem_filter, List.mem_range]

/-- No bit of the word stands outside the mask. -/
def Under (x e : Bits7) : Prop := x &&& ~~~e = 0

theorem under_iff {x e : Bits7} : Under x e ↔ ∀ i, x.getLsbD i = true → e.getLsbD i = true := by
  constructor
  · intro h i hi
    have hbit : (x &&& ~~~e).getLsbD i = false := by
      rw [h]
      exact BitVec.getLsbD_zero
    simpa [BitVec.getLsbD_and, BitVec.getLsbD_not, hi, BitVec.lt_of_getLsbD hi, -BitVec.getLsbD_eq_getElem] using hbit
  · intro h
    refine BitVec.eq_of_getLsbD_eq fun i _ => ?_
    rw [BitVec.getLsbD_and, BitVec.getLsbD_not]
    cases hx : x.getLsbD i
    · simp
    · simp [h i hx]

theorem Under.popcount_le {x e : Bits7} (h : Under x e) : popcount x ≤ popcount e :=
  countUpTo_le_of_imp (under_iff.mp h) 7

/-- Two words agree outside the mask iff they differ only under it. -/
theorem and_not_eq_iff_under {x y e : Bits7} : x &&& ~~~e = y &&& ~~~e ↔ Under (x ^^^ y) e := by
  have hdistrib : (x ^^^ y) &&& ~~~e = (x &&& ~~~e) ^^^ (y &&& ~~~e) := by
    ext i
    simp [Bool.and_xor_distrib_right]
  rw [Under, hdistrib]
  exact BitVec.xor_eq_zero_iff.symm

/-- The bits of a candidate stand under the mask. -/
theorem candidateBits_under (e : Bits7) (m : Nat) : Under (candidateBits e m) e := by
  refine under_iff.mpr fun i hi => ?_
  by_cases hmem : i ∈ erasedIndices e
  · exact (mem_erasedIndices.mp hmem).2
  · exact absurd ((getLsbD_bitsOver_of_not_mem hmem m).symm.trans hi) Bool.false_ne_true

/-- Each word under the mask is the bits of a candidate. -/
theorem exists_candidateBits_eq {x e : Bits7} (h : Under x e) : ∃ m < 2 ^ popcount e, candidateBits e m = x := by
  rw [← length_erasedIndices]
  exact exists_bitsOver_eq x fun j hj => mem_erasedIndices.mpr ⟨BitVec.lt_of_getLsbD hj, under_iff.mp h j hj⟩

theorem candidateBits_injective {e : Bits7} {m m' : Nat} (hm : m < 2 ^ popcount e) (hm' : m' < 2 ^ popcount e)
    (h : candidateBits e m = candidateBits e m') : m = m' := by
  rw [← length_erasedIndices] at hm hm'
  exact bitsOver_injective (nodup_erasedIndices e) (fun i hi => (mem_erasedIndices.mp hi).1) hm hm' h

/-- The image of a candidate is the syndrome of its bits (R172, R173). -/
theorem syn_candidateBits (e : Bits7) (m : Nat) : syn (candidateBits e m) = candidateImage e m :=
  syn_bitsOver (fun _ hi => (mem_erasedIndices.mp hi).1) m

/-! ## At most two erasures (R176) -/

/-- The code has distance 3: a codeword of at most 2 bits is 0. -/
theorem eq_zero_of_syn_eq_zero : ∀ x : Bits7, popcount x ≤ 2 → syn x = 0 → x = 0 := by decide

/-- Words that differ under at most 2 erasures differ in their syndromes. -/
theorem eq_of_syn_eq {x y e : Bits7} (he : popcount e ≤ 2) (hunder : Under (x ^^^ y) e) (h : syn x = syn y) :
    x = y := by
  have hsyn : syn (x ^^^ y) = 0 := by
    rw [syn_xor, h]
    exact BitVec.xor_self
  exact BitVec.xor_eq_zero_iff.mp (eq_zero_of_syn_eq_zero _ (Nat.le_trans hunder.popcount_le he) hsyn)

/-! ## The search (R174, R175) -/

/-- The known bits, with 0 in the erased slots (R171). -/
def TriWord.known (c : TriWord) : Bits7 := c.v &&& ~~~c.e

/-- A codeword that agrees with the known bits. -/
def TriWord.CompletesTo (c : TriWord) (x : Bits7) : Prop := x &&& ~~~c.e = c.known ∧ syn x = 0

/-- At most one codeword agrees with the known bits when at most 2 slots are erased. -/
theorem TriWord.CompletesTo.unique {c : TriWord} {x y : Bits7} (he : popcount c.e ≤ 2) (hx : c.CompletesTo x)
    (hy : c.CompletesTo y) : x = y :=
  eq_of_syn_eq he (and_not_eq_iff_under.mp (hx.1.trans hy.1.symm)) (hx.2.trans hy.2.symm)

theorem known_and_not (c : TriWord) : c.known &&& ~~~c.e = c.known := by
  rw [TriWord.known, BitVec.and_assoc, BitVec.and_self]

/-- Known bits and bits under the mask have no bit in common. -/
theorem known_or_eq_xor (c : TriWord) {x : Bits7} (h : Under x c.e) : c.known ||| x = c.known ^^^ x := by
  refine BitVec.eq_of_getLsbD_eq fun i _ => ?_
  rw [BitVec.getLsbD_or, BitVec.getLsbD_xor]
  cases hx : x.getLsbD i
  · simp
  · simp [TriWord.known, under_iff.mp h i hx, -BitVec.getLsbD_eq_getElem]

/-- A candidate whose image is the target completes the known bits (R174). -/
theorem completesTo_of_candidate {c : TriWord} {m : Nat} (h : candidateImage c.e m = syn c.known) :
    c.CompletesTo (c.known ||| candidateBits c.e m) := by
  have hunder := candidateBits_under c.e m
  constructor
  · rw [BitVec.and_or_distrib_right, known_and_not, hunder]
    exact BitVec.or_zero
  · rw [known_or_eq_xor c hunder, syn_xor, syn_candidateBits, h]
    exact BitVec.xor_self

/-- A completion of the known bits is a candidate whose image is the target. -/
theorem candidate_of_completesTo {c : TriWord} {x : Bits7} (h : c.CompletesTo x) :
    ∃ m < 2 ^ popcount c.e, candidateImage c.e m = syn c.known := by
  obtain ⟨hagree, hsyn⟩ := h
  obtain ⟨m, hm, hbits⟩ := exists_candidateBits_eq (and_not_eq_iff_under.mp (hagree.trans (known_and_not c).symm))
  refine ⟨m, hm, ?_⟩
  rw [← syn_candidateBits, hbits, syn_xor, hsyn]
  exact BitVec.zero_xor

/-- The first candidate whose image is the target, if there is one (R173, R174). -/
def TriWord.firstCandidate (c : TriWord) : Option Nat :=
  (List.range (2 ^ popcount c.e)).find? fun m => candidateImage c.e m == syn c.known

theorem candidateImage_of_firstCandidate {c : TriWord} {m : Nat} (h : c.firstCandidate = some m) :
    candidateImage c.e m = syn c.known :=
  beq_iff_eq.mp (List.find?_some (p := fun m => candidateImage c.e m == syn c.known) h)

theorem edec_of_firstCandidate_some {c : TriWord} (he : popcount c.e ≤ 2) {m : Nat} (h : c.firstCandidate = some m) :
    edec c =
      { s := syn c.known
        cc := c.known ||| candidateBits c.e m
        q := extract (c.known ||| candidateBits c.e m)
        uncorr := false
        noMatch := false } := by
  rw [TriWord.firstCandidate, TriWord.known] at h
  simp only [edec, Nat.not_lt.mpr he, if_false, h, TriWord.known]

theorem edec_of_firstCandidate_none {c : TriWord} (he : popcount c.e ≤ 2) (h : c.firstCandidate = none) :
    edec c = { s := syn c.known, cc := c.known, q := extract c.known, uncorr := false, noMatch := true } := by
  rw [TriWord.firstCandidate, TriWord.known] at h
  simp only [edec, Nat.not_lt.mpr he, if_false, h, TriWord.known]

/-- What the decoder answers for at most 2 erasures: a codeword that agrees with the known bits, or the known bits
themselves when there is none (R174, R175). -/
theorem edec_cases {c : TriWord} (he : popcount c.e ≤ 2) :
    (∃ cc, c.CompletesTo cc ∧
      edec c = { s := syn c.known, cc := cc, q := extract cc, uncorr := false, noMatch := false }) ∨
    ((∀ x, ¬ c.CompletesTo x) ∧
      edec c = { s := syn c.known, cc := c.known, q := extract c.known, uncorr := false, noMatch := true }) := by
  cases hfirst : c.firstCandidate with
  | some m =>
    have himage := candidateImage_of_firstCandidate hfirst
    exact .inl ⟨_, completesTo_of_candidate himage, edec_of_firstCandidate_some he hfirst⟩
  | none =>
    refine .inr ⟨fun x hx => ?_, edec_of_firstCandidate_none he hfirst⟩
    obtain ⟨m, hm, himage⟩ := candidate_of_completesTo hx
    exact List.find?_eq_none.mp hfirst m (List.mem_range.mpr hm) (beq_iff_eq.mpr himage)

theorem edec_degraded {c : TriWord} (he : 2 < popcount c.e) :
    edec c = { s := 0, cc := 0, q := 0, uncorr := true, noMatch := false } := if_pos he

/-- The decoder reads the known bits and the mask alone (R171). -/
theorem edec_congr {c : TriWord} {v : Bits7} (h : v &&& ~~~c.e = c.known) : edec { v := v, e := c.e } = edec c := by
  simp only [edec, h, TriWord.known]

/-- A codeword with at most 2 slots erased is recovered (R180). -/
theorem edec_of_completesTo_enc {c : TriWord} {d : DataBlock} (he : popcount c.e ≤ 2) (hd : c.CompletesTo (enc d)) :
    edec c = { s := syn c.known, cc := enc d, q := d, uncorr := false, noMatch := false } := by
  obtain ⟨cc, hcc, hedec⟩ | ⟨hnone, -⟩ := edec_cases he
  · rw [hedec, hcc.unique he hd, extract_enc]
  · exact absurd hd (hnone _)

theorem exec_edec (s : State) : exec .edec s = .next (Instr.edec.effect s) := rfl

end Sys2Proof.Machine

namespace Sys2Proof.Proofs

open Sys2Proof.Machine

/-- Settles O35: candidates with one image differ under the mask by a codeword of at most 2 bits, which is 0. -/
theorem candidatesAreUnique : Obligations.CandidatesAreUnique := by
  intro e he m m' hm hm' h
  have hunder : Under (candidateBits e m ^^^ candidateBits e m') e :=
    and_not_eq_iff_under.mp ((candidateBits_under e m).trans (candidateBits_under e m').symm)
  refine candidateBits_injective hm hm' (eq_of_syn_eq he hunder ?_)
  rw [syn_candidateBits, syn_candidateBits, h]

/-- Settles O33: `EDEC` makes no check, and its effect writes the degraded output for more than 2 erasures, and otherwise
a completion of the known bits if there is one. -/
theorem edecCompletesTheCodeword : Obligations.EdecCompletesTheCodeword := by
  intro s
  refine ⟨fun he => ?_, fun he => ?_⟩
  · rw [exec_edec, Instr.effect, edec_degraded he]
    rfl
  · simp only [← syn_eq_syndromeOf, ← extract_eq_dataOf]
    obtain ⟨cc, hcc, hedec⟩ | ⟨hnone, hedec⟩ := edec_cases he
    · refine ⟨cc, false, ?_, iff_of_false Bool.false_ne_true fun hnone => ?_, fun _ => hcc,
        (absurd · Bool.false_ne_true)⟩
      · rw [exec_edec, Instr.effect, hedec]
        rfl
      · exact hnone cc hcc.1 hcc.2
    · refine ⟨s.regC.known, true, ?_, iff_of_true rfl fun x hx hsyn => ?_,
        (absurd ·.symm Bool.false_ne_true), fun _ => rfl⟩
      · rw [exec_edec, Instr.effect, hedec]
        rfl
      · exact hnone x ⟨hx, hsyn⟩

/-- Settles O34: the decoder reads the known bits and the mask alone, and `EDEC` does not write `C`. -/
theorem erasedValuesAreNotRead : Obligations.ErasedValuesAreNotRead := by
  intro s v hv
  have hedec : edec { v := v, e := s.regC.e } = edec s.regC := edec_congr hv
  refine ⟨hedec, ?_⟩
  rintro _ ⟨⟩
  rw [exec_edec, Instr.effect, hedec]
  rfl

/-- Settles O36: the codeword completes its known bits, and nothing else does. -/
theorem twoErasuresAreRecovered : Obligations.TwoErasuresAreRecovered := by
  intro d v e he hv
  have hedec := edec_of_completesTo_enc (c := { v := v, e := e }) he ⟨hv.symm, syn_enc d⟩
  rw [hedec]
  exact ⟨rfl, rfl, rfl, rfl⟩

end Sys2Proof.Proofs
end

section
/-! SUPPORT. The flow of R243 and R244 on the machine: a command word on the bus is one step, and a batch that loses two
channels between `ILV` and `DILB` comes to the decoder with their slots of each codeword erased. -/

namespace Sys2Proof.Machine

/-! ## A batch under way -/

/-- With all channels present, one more marked present changes nothing (R30). -/
theorem full_or_channelBit : ∀ c : Fin 7, (0x7F : Bits7) ||| channelBit c = 0x7F := by decide

/-- A step that answers a next state is the first of a run. -/
theorem run_succ_of_step {s t : State} (h : step s = .next t) (n : Nat) :
    Host.Core.run Sys2Proof.core (n + 1) s = Host.Core.run Sys2Proof.core n t := by
  have hstep : Sys2Proof.core.step s = .next t := h
  simp only [Host.Core.run, hstep]

/-- A batch of the machine `s` is under way in `t`: its buffers are `m`, the channels in `v` are present, and the commands
`is` stand on the bus. `N` and the parameters are those of `s`, and no fault is pending. -/
structure BatchFlow (s : State) (m : Memory) (v : Bits7) (is : List Instr) (t : State) : Prop where
  cfg : t.cfg = s.cfg
  regN : t.regN = s.regN
  err : t.status.err = 0
  mem : t.mem = m
  chstat : t.chstat = v
  bus : t.bus = is.map fun i => issueEvent s.cfg 0 (encode i)

namespace BatchFlow

variable {s t : State} {m : Memory} {v : Bits7} {i : Instr} {is : List Instr}

theorem batch_eq (h : BatchFlow s m v is t) : t.batch = s.batch := congrArg BitVec.toNat h.regN

theorem batch_le (h : BatchFlow s m v is t) (hN : s.batch ≤ s.cfg.nmax) : t.batch ≤ t.cfg.nmax := by
  rwa [h.batch_eq, h.cfg]

theorem withMem (h : BatchFlow s m v is t) (m' : Memory) : BatchFlow s m' v is (t.withMem m') := { h with mem := rfl }

theorem withChstat (h : BatchFlow s m v is t) (v' : Bits7) : BatchFlow s m v' is (t.withChstat v') :=
  { h with chstat := rfl }

/-- The next command is executed with its event taken off the bus and the write answered (R57, R214). -/
theorem issued (h : BatchFlow s m v (i :: is) t) (hi : i.WellFormed) :
    ∃ u, BatchFlow s m v is u ∧ step t = exec i u := by
  refine ⟨{ t with bus := is.map fun i => issueEvent s.cfg 0 (encode i), reply := .written 0 }, { h with bus := rfl },
    Proofs.stepRunsDecodedCommand t 0 (encode i) _ i ?_ h.err (decode_encode hi)⟩
  rw [h.cfg]
  exact h.bus

/-- A run goes on from the state in which the next command completes. -/
theorem run_succ (h : BatchFlow s m v (i :: is) t) (hi : i.WellFormed) {Q : State → Prop}
    (hexec : ∀ u, BatchFlow s m v is u → ∃ w, exec i u = .next w ∧ Q w) (n : Nat) :
    ∃ w : State, Host.Core.run Sys2Proof.core (n + 1) t = Host.Core.run Sys2Proof.core n w ∧ Q w := by
  obtain ⟨u, hu, hissued⟩ := h.issued hi
  obtain ⟨w, hw, hQ⟩ := hexec u hu
  exact ⟨w, run_succ_of_step (hissued.trans hw) n, hQ⟩

theorem exec_encb (h : BatchFlow s m v is t) (hN : s.batch ≤ s.cfg.nmax) :
    ∃ u, exec .encb t = .next u ∧ BatchFlow s (m.encodeBatch s.batch) v is u := by
  refine ⟨_, check_eq_go (batchTooLong_eq_false (h.batch_le hN)), ?_⟩
  rw [h.mem, h.batch_eq]
  exact h.withMem _

theorem exec_ilv (h : BatchFlow s m v is t) (hN : s.batch ≤ s.cfg.nmax) :
    ∃ u, exec .ilv t = .next u ∧ BatchFlow s (m.interleave s.batch) 0x7F is u := by
  refine ⟨_, Machine.exec_ilv (h.batch_le hN), ?_⟩
  rw [Instr.effect, h.mem, h.batch_eq]
  exact (h.withMem _).withChstat _

theorem exec_chlost (h : BatchFlow s m 0x7F is t) (hN : s.batch ≤ s.cfg.nmax) (c : Fin 7) :
    ∃ u, exec (.chlost c) t = .next u ∧ BatchFlow s (m.markLost c s.batch) 0x7F is u := by
  refine ⟨_, Machine.exec_chlost (h.batch_le hN) c.isLt, ?_⟩
  rw [h.mem, h.batch_eq, State.markPresent, withMem_chstat, h.chstat, full_or_channelBit]
  exact (h.withMem _).withChstat _

theorem exec_dilb (h : BatchFlow s m 0x7F is t) (hN : s.batch ≤ s.cfg.nmax) :
    ∃ u, exec .dilb t = .next u ∧ BatchFlow s (m.deinterleave s.batch) 0x7F is u := by
  refine ⟨_, Machine.exec_dilb (h.batch_le hN) h.chstat, ?_⟩
  rw [Instr.effect, h.mem, h.batch_eq]
  exact h.withMem _

/-- The results of the batch, each decode flag the OR over its blocks (R192). -/
theorem exec_decb (h : BatchFlow s m v is t) (hN : s.batch ≤ s.cfg.nmax) :
    ∃ u, exec .decb t = .next u ∧ BatchFlow s (m.decodeBatch s.batch) v is u ∧
      u.status.uncorr = m.batchFlag s.batch DobEntry.uncorr ∧
      u.status.noMatch = m.batchFlag s.batch DobEntry.noMatch := by
  refine ⟨_, Machine.exec_decb (h.batch_le hN), ?_⟩
  rw [Instr.effect, h.mem, h.batch_eq]
  exact ⟨{ h.withMem (m.decodeBatch s.batch) with }, rfl, rfl⟩

end BatchFlow

/-! ## Two lost channels (R151, R180) -/

/-- A lost channel erases its slot of each codeword of the batch. -/
theorem gather_markLost (m : Memory) (c : Fin 7) {n k : Nat} (hk : k < n) :
    (m.markLost c n).gather k = { v := (m.gather k).v, e := (m.gather k).e ||| channelBit c } := by
  refine triWord_ext (fun d => ?_) (fun d => ?_)
  · rw [gather_v, gather_v, chvAt_congr (markLost_chv ..)]
  · rw [gather_e, markLost_cheAt, BitVec.getLsbD_or, gather_e, getLsbD_channelBit]
    simp [hk, Fin.ext_iff, Bool.or_comm]

theorem popcount_two_channelBits : ∀ a b : Fin 7, popcount (channelBit a ||| channelBit b) ≤ 2 := by decide

theorem two_channelBits_ne_zero : ∀ a b : Fin 7, channelBit a ||| channelBit b ≠ 0 := by decide

/-- A block with one or two slots erased takes the erasure path, which recovers it (R180, R190). -/
theorem decodeBlock_enc_erased (d : DataBlock) {e : Bits7} (hne : e ≠ 0) (he : popcount e ≤ 2) :
    decodeBlock { v := enc d, e := e } =
      { data := d, corr := false, uncorr := false, noMatch := false, epath := true } := by
  have hedec := edec_of_completesTo_enc (c := { v := enc d, e := e }) he ⟨rfl, syn_enc d⟩
  rw [decodeBlock, if_neg hne, hedec]

/-- The buffers of a batch of `n` blocks that `ENCB`, `ILV`, `CHLOST a`, `CHLOST b` and `DILB` leave. -/
def Memory.transfer (m : Memory) (a b : Fin 7) (n : Nat) : Memory :=
  ((((m.encodeBatch n).interleave n).markLost a n).markLost b n).deinterleave n

@[simp] theorem transfer_dib (m : Memory) (a b : Fin 7) (n : Nat) : (m.transfer a b n).dib = m.dib := by
  simp [Memory.transfer]

/-- Each codeword comes through with the slots of the two lost channels erased. -/
theorem transfer_cwbAt (m : Memory) (a b : Fin 7) {n k : Nat} (hk : k < n) :
    (m.transfer a b n).cwbAt k = { v := enc (m.dibAt k), e := channelBit a ||| channelBit b } := by
  rw [Memory.transfer, deinterleave_cwbAt_of_lt _ hk, gather_markLost _ _ hk, gather_markLost _ _ hk,
    gather_interleave _ hk, encodeBatch_cwbAt, if_pos hk]
  simp

theorem decodeBlock_transfer (m : Memory) (a b : Fin 7) {n k : Nat} (hk : k < n) :
    decodeBlock ((m.transfer a b n).cwbAt k) =
      { data := m.dibAt k, corr := false, uncorr := false, noMatch := false, epath := true } := by
  rw [transfer_cwbAt m a b hk]
  exact decodeBlock_enc_erased _ (two_channelBits_ne_zero a b) (popcount_two_channelBits a b)

/-- The machine runs the flow up to `DECB`: each command completes in the state the one before it leaves. -/
theorem BatchFlow.run_transfer {s : State} {a b : Fin 7} (hN : s.batch ≤ s.cfg.nmax)
    (h : BatchFlow s s.mem s.chstat [.encb, .ilv, .chlost a, .chlost b, .dilb, .decb] s) :
    ∃ t : State, Host.Core.run Sys2Proof.core 6 s = Host.Core.run Sys2Proof.core 1 t ∧
      BatchFlow s (s.mem.transfer a b s.batch) 0x7F [.decb] t := by
  have hchlost (c : Fin 7) : (Instr.chlost c).WellFormed := decide_eq_true (by omega)
  obtain ⟨t₁, hrun₁, hencoded⟩ := h.run_succ rfl (fun _ h => h.exec_encb hN) 5
  obtain ⟨t₂, hrun₂, hsent⟩ := hencoded.run_succ rfl (fun _ h => h.exec_ilv hN) 4
  obtain ⟨t₃, hrun₃, hlost⟩ := hsent.run_succ (hchlost a) (fun _ h => h.exec_chlost hN a) 3
  obtain ⟨t₄, hrun₄, hlost'⟩ := hlost.run_succ (hchlost b) (fun _ h => h.exec_chlost hN b) 2
  obtain ⟨t₅, hrun₅, hreceived⟩ := hlost'.run_succ rfl (fun _ h => h.exec_dilb hN) 1
  exact ⟨t₅, hrun₁.trans <| hrun₂.trans <| hrun₃.trans <| hrun₄.trans hrun₅, hreceived⟩

end Sys2Proof.Machine

namespace Sys2Proof.Proofs

open Sys2Proof.Machine

/-- Settles O59: `DECB` finds each codeword of the batch with the slots of the two lost channels erased, and takes it down
the erasure path. -/
theorem twoLostChannelsAreRecovered : Obligations.TwoLostChannelsAreRecovered := by
  intro s a b ha hb hN herr hbus
  obtain ⟨a, rfl⟩ : ∃ c : Fin 7, c.val = a := ⟨⟨a, ha⟩, rfl⟩
  obtain ⟨b, rfl⟩ : ∃ c : Fin 7, c.val = b := ⟨⟨b, hb⟩, rfl⟩
  have hstart : BatchFlow s s.mem s.chstat [.encb, .ilv, .chlost a, .chlost b, .dilb, .decb] s :=
    ⟨rfl, rfl, herr, rfl, rfl, hbus⟩
  obtain ⟨t₅, hrun₅, hreceived⟩ := hstart.run_transfer hN
  obtain ⟨t, hrun, hdone, huncorr, hnoMatch⟩ := hreceived.run_succ rfl (fun _ h => h.exec_decb hN) 0
  have hblock {k : Nat} (hk : k < s.batch) := decodeBlock_transfer s.mem a b hk
  refine ⟨t, hrun₅.trans hrun, hdone.bus, hdone.err, ?_, ?_, ?_, fun k hk => ?_⟩
  · exact huncorr.trans (batchFlag_eq_false fun k hk => congrArg DobEntry.uncorr (hblock hk))
  · exact hnoMatch.trans (batchFlag_eq_false fun k hk => congrArg DobEntry.noMatch (hblock hk))
  · rw [hdone.mem, decodeBatch_dib, transfer_dib]
  · change k < s.batch at hk
    rw [hdone.mem, decodeBatch_dobAt, if_pos hk, hblock hk]
    exact ⟨rfl, rfl, rfl, rfl⟩

end Sys2Proof.Proofs
end

section
/-! SUPPORT. The batch codec and the control commands (R190 to R194): the decoder a block takes, and the flags of a batch as
the flags of the results it leaves. -/

namespace Sys2Proof.Machine

open Claims

theorem exec_encb {s : State} (h : s.batch ≤ s.cfg.nmax) : exec .encb s = .next (Instr.encb.effect s) :=
  check_eq_go (batchTooLong_eq_false h)

/-- A block with no slot erased takes the single-error path, in the formulas of R121 and R122. -/
theorem decodeBlock_of_unerased {c : TriWord} (h : c.e = 0) :
    decodeBlock c =
      { data := dataOf (c.v ^^^ flipMask (syndromeOf c.v))
        corr := syndromeOf c.v != 0
        uncorr := false
        noMatch := false
        epath := false } := by
  rw [decodeBlock, if_pos h, secDecode_eq, extract_eq_dataOf, syn_eq_syndromeOf]

/-- A block with a slot erased takes the erasure path. -/
theorem decodeBlock_of_erased {c : TriWord} (h : c.e ≠ 0) :
    decodeBlock c =
      { data := (edec c).q
        corr := false
        uncorr := (edec c).uncorr
        noMatch := (edec c).noMatch
        epath := true } := by
  rw [decodeBlock, if_neg h]

/-- Inside the batch a result is what `decode_block` answers for its codeword. -/
theorem decodeBatch_dobAt_of_lt (m : Memory) {n k : Nat} (hk : k < n) :
    (m.decodeBatch n).dobAt k = decodeBlock (m.cwbAt k) :=
  (decodeBatch_dobAt ..).trans (if_pos hk)

/-- A flag of the batch is set iff it is set in a result of the batch. -/
theorem batchFlag_iff_exists_dobAt (m : Memory) (n : Nat) (flag : DobEntry → Bool) :
    m.batchFlag n flag = true ↔ ∃ k, k < n ∧ flag ((m.decodeBatch n).dobAt k) = true := by
  refine (batchFlag_eq_true ..).trans (exists_congr fun k => and_congr_right fun hk => ?_)
  rw [decodeBatch_dobAt_of_lt m hk]

end Sys2Proof.Machine

namespace Sys2Proof.Proofs

open Sys2Proof.Machine

/-- Settles O47: `ENCB` is the check of `N`, and then the product with G at each entry of the batch. -/
theorem encbEncodesOrFaults : Obligations.EncbEncodesOrFaults := by
  intro s
  refine ⟨fun hN => ?_, fun hN => exec_illegalOperand (.inl ⟨rfl, hN⟩)⟩
  refine ⟨_, exec_encb hN, encodeBatch_dib .., encodeBatch_dob .., encodeBatch_chv .., encodeBatch_che .., fun k => ?_⟩
  rw [← enc_eq_codewordOf]
  exact encodeBatch_cwbAt ..

/-- Settles O48: `DECB` is the check of `N`, and then `decode_block` at each entry of the batch, whose mask selects the
decoder; the flags of the batch are those of the results. -/
theorem decbDecodesOrFaults : Obligations.DecbDecodesOrFaults := by
  intro s
  refine ⟨fun hN => ?_, fun hN => exec_illegalOperand (.inl ⟨rfl, hN⟩)⟩
  refine ⟨_, _, _, _, exec_decb hN, decodeBatch_dib .., decodeBatch_cwb .., decodeBatch_chv .., decodeBatch_che ..,
    fun k hk => ?_, fun k hk he => ?_, fun k hk he => ?_, batchFlag_iff_exists_dobAt .., batchFlag_iff_exists_dobAt ..,
    batchFlag_iff_exists_dobAt ..⟩
  · exact (decodeBatch_dobAt ..).trans (if_neg (Nat.not_lt.mpr hk))
  · exact (decodeBatch_dobAt_of_lt _ hk).trans (decodeBlock_of_unerased he)
  · exact (decodeBatch_dobAt_of_lt _ hk).trans (decodeBlock_of_erased he)

/-- Settles O49: `NOP` makes no check and has no effect (R193). -/
theorem nopChangesNothing : Obligations.NopChangesNothing := fun _ => rfl

/-- Settles O50: `CLRERR` makes no check, and its effect is the return from a fault (R194, R220). -/
theorem clrerrAcknowledges : Obligations.ClrerrAcknowledges := fun _ => rfl

end Sys2Proof.Proofs
end

section
/-! SUPPORT. The faults of a command (R210 to R215), and that the answer on the bus is read by nothing: a command, a command
word and a host write answer alike whatever it is, so it does not matter which agent it names (R222). -/

namespace Sys2Proof.Machine

/-! ## The effect of a command and the faults -/

/-- The effect of a command raises no fault, and only that of `CLRERR` touches `ERR` and `ERRCMD` (R194, R213). -/
theorem effect_fault (i : Instr) (s : State) :
    (i.effect s).faultLog = s.faultLog ∧
      (i ≠ .clrerr → (i.effect s).status.err = s.status.err ∧ (i.effect s).errcmd = s.errcmd) := by
  cases i with
  | clrerr => exact ⟨rfl, fun h => absurd rfl h⟩
  | chrdy c | chlost c => cases hc : channel? c <;> simp [Instr.effect, hc]
  | nop | mvg | mvh | enc _ | dec _ | edec | ilv | ilv1 _ | dil _ | dilb | bclr | encb | decb => simp [Instr.effect]

/-! ## The answer on the bus is read by nothing -/

section Answer

variable (s : State) (r : BusReply)

theorem firstFault_answer (i : Instr) : i.firstFault (s.answer r) = i.firstFault s := by
  have hmeets : i.meets (s.answer r) = i.meets s := by cases i <;> rfl
  rw [Instr.firstFault, hmeets, Instr.firstFault]

theorem effect_answer (i : Instr) : i.effect (s.answer r) = (i.effect s).answer r := by
  cases i with
  | chrdy c | chlost c => cases hc : channel? c <;> simp only [Instr.effect, hc] <;> rfl
  | nop | mvg | mvh | clrerr | enc _ | dec _ | edec | ilv | ilv1 _ | dil _ | dilb | bclr | encb | decb => rfl

theorem writeAt_answer (v : Word) (l : Location) : (s.answer r).writeAt v l = (s.writeAt v l).answer r := by
  cases l with
  | dib k =>
    rw [writeAt_dib, writeAt_dib]
    rfl
  | cwb k =>
    rw [writeAt_cwb, writeAt_cwb]
    rfl
  | cmd | status | d | c | s | p | q | cc | n | chstat | errcmd | id | dob | chv | che | reserved => rfl

variable {s} {t : State}

theorem exec_answer {i : Instr} (h : exec i s = .next t) : exec i (s.answer r) = .next (t.answer r) := by
  rw [exec_eq_next, firstFault_answer, effect_answer]
  obtain ⟨e, he, rfl⟩ | ⟨hf, rfl⟩ := exec_cases h
  · rw [he]
    rfl
  · rw [hf]
    rfl

theorem perform_answer {w : Word} (h : perform w s = .next t) : perform w (s.answer r) = .next (t.answer r) := by
  obtain ⟨herr, rfl, hp⟩ | ⟨herr, hw, hp⟩ | ⟨herr, ⟨why, hd⟩, hp⟩ | ⟨herr, i, hd, hp⟩ := perform_cases w s
  all_goals rw [hp] at h
  · obtain rfl := Host.Outcome.next.inj h
    exact (perform_pending (s := s.answer r) herr).trans (if_pos rfl)
  · obtain rfl := Host.Outcome.next.inj h
    exact (perform_pending (s := s.answer r) herr).trans (if_neg hw)
  · obtain rfl := Host.Outcome.next.inj h
    exact perform_illegal (s := s.answer r) herr hd
  · exact (perform_command (s := s.answer r) herr hd).trans (exec_answer r h)

theorem memWrite_answer {off : Offset} {v : Word} (h : s.memWrite off v = .next t) :
    (s.answer r).memWrite off v = .next (t.answer r) := by
  by_cases hloc : locate off = .cmd
  · simp only [State.memWrite, hloc] at h ⊢
    exact perform_answer r h
  · rw [memWrite_store v hloc] at h
    obtain rfl := Host.Outcome.next.inj h
    rw [memWrite_store v hloc, writeAt_answer]

/-- A host write leaves the answer as it finds it: with the answer it finds put there again, it does the same. -/
theorem reply_of_memWrite {off : Offset} {v : Word} (h : s.memWrite off v = .next t) : t.reply = s.reply := by
  have hsame : s.memWrite off v = .next (t.answer s.reply) := memWrite_answer s.reply h
  have ht : t = t.answer s.reply := Host.Outcome.next.inj (h.symm.trans hsame)
  rw [ht, answer_reply]

end Answer

/-- An access whose step answers a next state was an aligned 32-bit access in the window (R50, R54). -/
theorem aligned_of_step {s t : State} {agent addr size : Nat} {v : Word} {rest : List BusEvent}
    (hbus : s.bus = .read agent addr size :: rest ∨ s.bus = .write agent addr size v :: rest) (h : step s = .next t) :
    ∃ off : Offset, addr = s.cfg.base + off.toNat ∧ size = 4 ∧ off.toNat % 4 = 0 := by
  obtain hbus | hbus := hbus
  all_goals
    rw [step_event hbus] at h
    obtain ⟨off, hwin, hsize, halign, -⟩ := hostAccess_eq_next h
    exact ⟨off, addr_of_windowOffset hwin, hsize, halign⟩

end Sys2Proof.Machine

namespace Sys2Proof.Proofs

open Sys2Proof.Machine

/-- Settles O51: a command raises the first fault it meets (R212, R215), and otherwise has its effect, which raises none. -/
theorem faultPriorityAndPrecision : Obligations.FaultPriorityAndPrecision := by
  intro i s
  have hexec := exec_eq_next i s
  refine ⟨fun e he => ?_, fun hf => ?_⟩
  · rw [he] at hexec
    exact hexec
  · rw [hf] at hexec
    exact ⟨i.effect s, hexec, effect_fault i s⟩

/-- Settles O54: the access of either agent is aligned and in the window, a read finds the same word, and a write does not
read the answer that names its agent. -/
theorem agentsAreAlike : Obligations.AgentsAreAlike := by
  intro s t a b addr size v rest
  refine ⟨fun hbus h => ?_, fun hbus h => ?_⟩
  · obtain ⟨off, rfl, rfl, halign⟩ := aligned_of_step (v := v) (.inl hbus) h
    obtain rfl := Host.Outcome.next.inj ((step_read halign hbus).symm.trans h)
    refine ⟨s.memRead off, rfl, ?_⟩
    rw [step_read (s := { s with bus := _ }) halign rfl, memRead_bus]
  · obtain ⟨off, rfl, rfl, halign⟩ := aligned_of_step (.inr hbus) h
    rw [step_write halign hbus] at h
    refine ⟨reply_of_memWrite h, ?_⟩
    rw [step_write (s := { s with bus := _ }) halign rfl]
    exact memWrite_answer (.written b) h

/-- Settles O8: the cases of R214 are those of `perform`. -/
theorem stickyErrorPreamble : Obligations.StickyErrorPreamble := by
  intro s w
  refine ⟨fun herr hw => ?_, fun herr hw => ?_, fun herr ⟨_, hd⟩ => perform_illegal herr hd,
    fun herr _ hd => perform_command herr hd⟩
  · exact (perform_pending herr).trans (if_pos hw)
  · exact (perform_pending herr).trans (if_neg hw)

end Sys2Proof.Proofs
end

section
/-! SUPPORT. The reset input as a step (R240). -/

namespace Sys2Proof.Machine

theorem step_reset {s : State} {rest : List BusEvent} (h : s.bus = .reset :: rest) :
    step s = .next ({ s with bus := rest } : State).applyReset := by
  rw [step_event h, serve]

end Sys2Proof.Machine

namespace Sys2Proof.Proofs

open Sys2Proof.Machine

/-- Settles O12: the step resets the state from which the event is taken, and this state has the same parameters and the
same ghost record. -/
theorem resetInputResets : Obligations.ResetInputResets := by
  intro s rest hbus
  rw [step_reset hbus, State.applyReset]

end Sys2Proof.Proofs
end
